-- ==== Sys2Proof/Word.lean ====
section
/-! DEFINITION. The two machine words of the block: the 8-bit byte (accumulator, log register, memory cell, operand, key
code, framebuffer register) and the 16-bit program counter (00_scope.md R5 "Widths that are not parameters", R6). -/

namespace Sys2Proof

/-- "A byte is an unsigned integer in [0, 255]" (00_scope.md R6). -/
abbrev Byte := BitVec 8

/-- A 16-bit instruction address, as the program counter holds it (10_state.md R11). -/
abbrev Addr := BitVec 16

end Sys2Proof
end

