-- ==== Sys2Proof/Syntax.lean ====
section
/-! DEFINITION. The instruction set as syntax: the 35 mnemonics of 30_encoding.md R63, the four groups of R62, the operand
kinds of R61, and one constructor of `Instr` per row of spec/opcode_table.json. Every constructor carries its operand byte,
also the kind `none` whose byte is fetched and ignored (R66), so that decoding loses no bit of an instruction. -/

namespace Sys2Proof

/-- The closed set of 35 mnemonics, spelled as 30_encoding.md R63 spells them (00_scope.md R2). -/
inductive Mnemonic where
  | NOP | LOAD | STORE | ADD | SUB | JMP
  | JZ | JNZ | HLT | CMP | CMP_VAL | GT
  | GT_VAL | LT | LT_VAL | NOT | SET_X | SET_Y
  | SET_R | SET_G | SET_B | SET_X_FROM_ACC | SET_Y_FROM_ACC | SET_R_FROM_ACC
  | SET_G_FROM_ACC | SET_B_FROM_ACC | DRAW_PIXEL | CLEAR_SCREEN | KEY_AVAILABLE | GET_KEY
  | PEEK_KEY | LOG_ADD | LOG_LOAD | LOG_STORE | LOG_PRINT
  deriving DecidableEq, Repr

/-- The four opcode groups (30_encoding.md R62). -/
inductive Group where
  | control | display | input | logging
  deriving DecidableEq, Repr

/-- How an instruction uses its operand byte (30_encoding.md R61). -/
inductive OperandKind where
  | dataAddr | codeAddr | imm | none
  deriving DecidableEq, Repr

/-- One instruction: its mnemonic and its operand byte (30_encoding.md R60, R63). -/
inductive Instr where
  /-- `NOP`, 41_control.md R110: operand byte fetched and ignored. -/
  | nop (ignored : Byte)
  /-- `LOAD`, 41_control.md R111: reads or writes the memory cell the operand names. -/
  | load (addr : Byte)
  /-- `STORE`, 41_control.md R112: reads or writes the memory cell the operand names. -/
  | store (addr : Byte)
  /-- `ADD`, 41_control.md R113: reads or writes the memory cell the operand names. -/
  | add (addr : Byte)
  /-- `SUB`, 41_control.md R114: reads or writes the memory cell the operand names. -/
  | sub (addr : Byte)
  /-- `JMP`, 41_control.md R115: jump target. -/
  | jmp (target : Byte)
  /-- `JZ`, 41_control.md R116: jump target. -/
  | jz (target : Byte)
  /-- `JNZ`, 41_control.md R117: jump target. -/
  | jnz (target : Byte)
  /-- `HLT`, 41_control.md R118: operand byte fetched and ignored. -/
  | hlt (ignored : Byte)
  /-- `CMP`, 42_compare.md R131: reads or writes the memory cell the operand names. -/
  | cmp (addr : Byte)
  /-- `CMP_VAL`, 42_compare.md R132: the operand byte is the value. -/
  | cmpVal (imm : Byte)
  /-- `GT`, 42_compare.md R133: reads or writes the memory cell the operand names. -/
  | gt (addr : Byte)
  /-- `GT_VAL`, 42_compare.md R134: the operand byte is the value. -/
  | gtVal (imm : Byte)
  /-- `LT`, 42_compare.md R135: reads or writes the memory cell the operand names. -/
  | lt (addr : Byte)
  /-- `LT_VAL`, 42_compare.md R136: the operand byte is the value. -/
  | ltVal (imm : Byte)
  /-- `NOT`, 42_compare.md R137: operand byte fetched and ignored. -/
  | notAcc (ignored : Byte)
  /-- `SET_X`, 43_display.md R156: the operand byte is the value. -/
  | setX (imm : Byte)
  /-- `SET_Y`, 43_display.md R157: the operand byte is the value. -/
  | setY (imm : Byte)
  /-- `SET_R`, 43_display.md R158: the operand byte is the value. -/
  | setR (imm : Byte)
  /-- `SET_G`, 43_display.md R159: the operand byte is the value. -/
  | setG (imm : Byte)
  /-- `SET_B`, 43_display.md R160: the operand byte is the value. -/
  | setB (imm : Byte)
  /-- `SET_X_FROM_ACC`, 43_display.md R161: operand byte fetched and ignored. -/
  | setXFromAcc (ignored : Byte)
  /-- `SET_Y_FROM_ACC`, 43_display.md R162: operand byte fetched and ignored. -/
  | setYFromAcc (ignored : Byte)
  /-- `SET_R_FROM_ACC`, 43_display.md R163: operand byte fetched and ignored. -/
  | setRFromAcc (ignored : Byte)
  /-- `SET_G_FROM_ACC`, 43_display.md R164: operand byte fetched and ignored. -/
  | setGFromAcc (ignored : Byte)
  /-- `SET_B_FROM_ACC`, 43_display.md R165: operand byte fetched and ignored. -/
  | setBFromAcc (ignored : Byte)
  /-- `DRAW_PIXEL`, 43_display.md R166: operand byte fetched and ignored. -/
  | drawPixel (ignored : Byte)
  /-- `CLEAR_SCREEN`, 43_display.md R167: operand byte fetched and ignored. -/
  | clearScreen (ignored : Byte)
  /-- `KEY_AVAILABLE`, 44_input.md R186: operand byte fetched and ignored. -/
  | keyAvailable (ignored : Byte)
  /-- `GET_KEY`, 44_input.md R187: operand byte fetched and ignored. -/
  | getKey (ignored : Byte)
  /-- `PEEK_KEY`, 44_input.md R188: operand byte fetched and ignored. -/
  | peekKey (ignored : Byte)
  /-- `LOG_ADD`, 45_logging.md R201: the operand byte is the value. -/
  | logAdd (imm : Byte)
  /-- `LOG_LOAD`, 45_logging.md R202: operand byte fetched and ignored. -/
  | logLoad (ignored : Byte)
  /-- `LOG_STORE`, 45_logging.md R203: operand byte fetched and ignored. -/
  | logStore (ignored : Byte)
  /-- `LOG_PRINT`, 45_logging.md R204: operand byte fetched and ignored. -/
  | logPrint (ignored : Byte)
  deriving DecidableEq, Repr

/-- The 35 mnemonics in the order 30_encoding.md R63 lists them. -/
def Mnemonic.all : List Mnemonic :=
  [.NOP, .LOAD, .STORE, .ADD, .SUB, .JMP, .JZ, .JNZ,
   .HLT, .CMP, .CMP_VAL, .GT, .GT_VAL, .LT, .LT_VAL, .NOT,
   .SET_X, .SET_Y, .SET_R, .SET_G, .SET_B, .SET_X_FROM_ACC, .SET_Y_FROM_ACC, .SET_R_FROM_ACC,
   .SET_G_FROM_ACC, .SET_B_FROM_ACC, .DRAW_PIXEL, .CLEAR_SCREEN, .KEY_AVAILABLE, .GET_KEY, .PEEK_KEY, .LOG_ADD,
   .LOG_LOAD, .LOG_STORE, .LOG_PRINT]

/-- The group of a mnemonic (30_encoding.md R63). -/
def Mnemonic.group : Mnemonic → Group
  | .NOP | .LOAD | .STORE | .ADD | .SUB | .JMP => .control
  | .JZ | .JNZ | .HLT | .CMP | .CMP_VAL | .GT => .control
  | .GT_VAL | .LT | .LT_VAL | .NOT => .control
  | .SET_X | .SET_Y | .SET_R | .SET_G | .SET_B | .SET_X_FROM_ACC => .display
  | .SET_Y_FROM_ACC | .SET_R_FROM_ACC | .SET_G_FROM_ACC | .SET_B_FROM_ACC | .DRAW_PIXEL | .CLEAR_SCREEN => .display
  | .KEY_AVAILABLE | .GET_KEY | .PEEK_KEY => .input
  | .LOG_ADD | .LOG_LOAD | .LOG_STORE | .LOG_PRINT => .logging

/-- The mnemonic of an instruction. -/
def Instr.mnemonic : Instr → Mnemonic
  | .nop _ => .NOP
  | .load _ => .LOAD
  | .store _ => .STORE
  | .add _ => .ADD
  | .sub _ => .SUB
  | .jmp _ => .JMP
  | .jz _ => .JZ
  | .jnz _ => .JNZ
  | .hlt _ => .HLT
  | .cmp _ => .CMP
  | .cmpVal _ => .CMP_VAL
  | .gt _ => .GT
  | .gtVal _ => .GT_VAL
  | .lt _ => .LT
  | .ltVal _ => .LT_VAL
  | .notAcc _ => .NOT
  | .setX _ => .SET_X
  | .setY _ => .SET_Y
  | .setR _ => .SET_R
  | .setG _ => .SET_G
  | .setB _ => .SET_B
  | .setXFromAcc _ => .SET_X_FROM_ACC
  | .setYFromAcc _ => .SET_Y_FROM_ACC
  | .setRFromAcc _ => .SET_R_FROM_ACC
  | .setGFromAcc _ => .SET_G_FROM_ACC
  | .setBFromAcc _ => .SET_B_FROM_ACC
  | .drawPixel _ => .DRAW_PIXEL
  | .clearScreen _ => .CLEAR_SCREEN
  | .keyAvailable _ => .KEY_AVAILABLE
  | .getKey _ => .GET_KEY
  | .peekKey _ => .PEEK_KEY
  | .logAdd _ => .LOG_ADD
  | .logLoad _ => .LOG_LOAD
  | .logStore _ => .LOG_STORE
  | .logPrint _ => .LOG_PRINT

/-- The operand byte of an instruction (30_encoding.md R60). -/
def Instr.operand : Instr → Byte
  | .nop b => b
  | .load b => b
  | .store b => b
  | .add b => b
  | .sub b => b
  | .jmp b => b
  | .jz b => b
  | .jnz b => b
  | .hlt b => b
  | .cmp b => b
  | .cmpVal b => b
  | .gt b => b
  | .gtVal b => b
  | .lt b => b
  | .ltVal b => b
  | .notAcc b => b
  | .setX b => b
  | .setY b => b
  | .setR b => b
  | .setG b => b
  | .setB b => b
  | .setXFromAcc b => b
  | .setYFromAcc b => b
  | .setRFromAcc b => b
  | .setGFromAcc b => b
  | .setBFromAcc b => b
  | .drawPixel b => b
  | .clearScreen b => b
  | .keyAvailable b => b
  | .getKey b => b
  | .peekKey b => b
  | .logAdd b => b
  | .logLoad b => b
  | .logStore b => b
  | .logPrint b => b

end Sys2Proof
end

