-- ==== Sys2Proof/Config.lean ====
section
/-! DEFINITION. The construction parameters of one machine instance (00_scope.md R5): N, FB_W, FB_H, OPMAP, LOG_ADD_MODE
and TICK as plain data, and the open table KEYMAP as an opaque constant. -/

namespace Sys2Proof

/-- `OPMAP`, the correspondence of opcode bytes and mnemonics, as a table of pairs (00_scope.md R5, 30_encoding.md R63). -/
abbrev OpMap := List (Byte × Mnemonic)

/-- `LOG_ADD_MODE`: whether `LOG_ADD` adds its operand byte or the cell it names (00_scope.md R5, 45_logging.md R201). -/
inductive LogAddMode where
  | imm | mem
  deriving DecidableEq, Repr

/-- The parameters of 00_scope.md R5, "fixed for the life of one machine instance". No step writes them. -/
structure Config where
  /-- `N`, the number of memory cells. -/
  memSize : Nat
  /-- `FB_W`, the width of the pixel grid. -/
  fbW : Nat
  /-- `FB_H`, the height of the pixel grid. -/
  fbH : Nat
  /-- `OPMAP`. -/
  opmap : OpMap
  /-- `LOG_ADD_MODE`. -/
  logAddMode : LogAddMode
  /-- `TICK`, the pacing interval: "no rule depends on it" (00_scope.md R5, 70_reset_and_hazards.md R270). -/
  tick : Nat
  deriving DecidableEq, Repr

/-- The four arrow keys. -/
inductive Arrow where
  | up | down | left | right
  deriving DecidableEq, Repr

/-- The keys the symbolic-key table names: "letters, digits, space, enter, escape, arrows" (44_input.md R181). -/
inductive NamedKey where
  | letter (index : Fin 26)
  | digit (value : Fin 10)
  | space | enter | escape
  | arrow (direction : Arrow)
  deriving DecidableEq, Repr

/-- A symbolic key as the host names it: one of the table's keys, or any other symbol, which the table lacks. -/
inductive KeySymbol where
  | named (k : NamedKey)
  | other (symbol : Nat)
  deriving DecidableEq, Repr

/-- FREE VALUE: the code of each named key. The source does not give the table (44_input.md R181, spec decision D22), so
nothing is known of it beyond its type; assumption log 18. -/
opaque keyCode : NamedKey → Byte

end Sys2Proof
end

