-- ==== Sys2Proof/WellFormed.lean ====
section
/-! DEFINITION. What is well formed: an opcode map (30_encoding.md R62), a configuration (00_scope.md R5) and an
instruction under an opcode map. Every operand byte is legal with every opcode (30_encoding.md R67), so the one way an
instruction can be ill formed is that the map gives its mnemonic no byte. -/

namespace Sys2Proof

/-- The first opcode byte of a group's range (30_encoding.md R62). -/
def Group.first : Group → Nat
  | .control => 0x00 | .display => 0x10 | .input => 0x20 | .logging => 0x30

/-- The last opcode byte of a group's range (30_encoding.md R62). -/
def Group.last : Group → Nat
  | .control => 0x0F | .display => 0x1B | .input => 0x22 | .logging => 0x33

/-- Whether a byte lies in a group's range (30_encoding.md R62). -/
def Group.contains (g : Group) (b : Byte) : Bool := g.first ≤ b.toNat && b.toNat ≤ g.last

/-- Every pair of the map stands in the range of its mnemonic's group. -/
def OpMap.inRange (m : OpMap) : Bool := m.all (fun e => e.2.group.contains e.1)

/-- "codes must stay unique" (30_encoding.md R62): no byte stands twice. -/
def OpMap.uniqueBytes (m : OpMap) : Bool := decide (m.map Prod.fst).Nodup

/-- No mnemonic stands twice. -/
def OpMap.uniqueMnemonics (m : OpMap) : Bool := decide (m.map Prod.snd).Nodup

/-- Every mnemonic has a byte. -/
def OpMap.complete (m : OpMap) : Bool := Mnemonic.all.all (fun k => m.any (fun e => e.2 == k))

/-- The map respects 30_encoding.md R62: a bijection of each group onto its range (00_scope.md R5). -/
def OpMap.wf (m : OpMap) : Bool := m.inRange && m.uniqueBytes && m.uniqueMnemonics && m.complete

/-- 256 <= N <= 65536 (00_scope.md R5). -/
def Config.memSizeOk (c : Config) : Bool := 256 ≤ c.memSize && c.memSize ≤ 65536

/-- FB_W and FB_H are positive (00_scope.md R5). -/
def Config.gridOk (c : Config) : Bool := 0 < c.fbW && 0 < c.fbH

/-- A legal configuration (00_scope.md R5). -/
def Config.wf (c : Config) : Bool := c.memSizeOk && c.gridOk && c.opmap.wf

/-- An instruction is well formed under a map that gives its mnemonic a byte; the operand is free (30_encoding.md R67). -/
def Instr.wf (m : OpMap) (i : Instr) : Bool := m.any (fun e => e.2 == i.mnemonic)

end Sys2Proof
end

