-- ==== Sys2Proof/Decode.lean ====
section
/-! DEFINITION. The standard opcode map, the decoder (total, rejecting by name) and the encoder, all from the tables of
30_encoding.md (R60 to R68, R95). The decoder works for every opcode map: OPMAP is a parameter (R63). -/

namespace Sys2Proof

/-- The byte of each mnemonic as 30_encoding.md R63 assigns it (spec decision D1; assumption log 1). -/
def OpMap.standard : OpMap :=
  [(0x00#8, .NOP), (0x01#8, .LOAD), (0x02#8, .STORE), (0x03#8, .ADD), (0x04#8, .SUB), (0x05#8, .JMP), (0x06#8, .JZ)] ++
  [(0x07#8, .JNZ), (0x08#8, .HLT), (0x09#8, .CMP), (0x0A#8, .CMP_VAL), (0x0B#8, .GT), (0x0C#8, .GT_VAL), (0x0D#8, .LT)] ++
  [(0x0E#8, .LT_VAL), (0x0F#8, .NOT), (0x10#8, .SET_X), (0x11#8, .SET_Y), (0x12#8, .SET_R), (0x13#8, .SET_G), (0x14#8, .SET_B)] ++
  [(0x15#8, .SET_X_FROM_ACC), (0x16#8, .SET_Y_FROM_ACC), (0x17#8, .SET_R_FROM_ACC), (0x18#8, .SET_G_FROM_ACC), (0x19#8, .SET_B_FROM_ACC), (0x1A#8, .DRAW_PIXEL), (0x1B#8, .CLEAR_SCREEN)] ++
  [(0x20#8, .KEY_AVAILABLE), (0x21#8, .GET_KEY), (0x22#8, .PEEK_KEY), (0x30#8, .LOG_ADD), (0x31#8, .LOG_LOAD), (0x32#8, .LOG_STORE), (0x33#8, .LOG_PRINT)]

/-- The kind of operand each mnemonic takes (30_encoding.md R61). -/
def Mnemonic.operandKind : Mnemonic → OperandKind
  | .LOAD | .STORE | .ADD | .SUB | .CMP => .dataAddr
  | .GT | .LT => .dataAddr
  | .JMP | .JZ | .JNZ => .codeAddr
  | .CMP_VAL | .GT_VAL | .LT_VAL | .SET_X | .SET_Y => .imm
  | .SET_R | .SET_G | .SET_B | .LOG_ADD => .imm
  | .NOP | .HLT | .NOT | .SET_X_FROM_ACC | .SET_Y_FROM_ACC => .none
  | .SET_R_FROM_ACC | .SET_G_FROM_ACC | .SET_B_FROM_ACC | .DRAW_PIXEL | .CLEAR_SCREEN => .none
  | .KEY_AVAILABLE | .GET_KEY | .PEEK_KEY | .LOG_LOAD | .LOG_STORE => .none
  | .LOG_PRINT => .none

/-- The instruction a mnemonic and an operand byte make (30_encoding.md R60). -/
def Instr.make : Mnemonic → Byte → Instr
  | .NOP, b => .nop b
  | .LOAD, b => .load b
  | .STORE, b => .store b
  | .ADD, b => .add b
  | .SUB, b => .sub b
  | .JMP, b => .jmp b
  | .JZ, b => .jz b
  | .JNZ, b => .jnz b
  | .HLT, b => .hlt b
  | .CMP, b => .cmp b
  | .CMP_VAL, b => .cmpVal b
  | .GT, b => .gt b
  | .GT_VAL, b => .gtVal b
  | .LT, b => .lt b
  | .LT_VAL, b => .ltVal b
  | .NOT, b => .notAcc b
  | .SET_X, b => .setX b
  | .SET_Y, b => .setY b
  | .SET_R, b => .setR b
  | .SET_G, b => .setG b
  | .SET_B, b => .setB b
  | .SET_X_FROM_ACC, b => .setXFromAcc b
  | .SET_Y_FROM_ACC, b => .setYFromAcc b
  | .SET_R_FROM_ACC, b => .setRFromAcc b
  | .SET_G_FROM_ACC, b => .setGFromAcc b
  | .SET_B_FROM_ACC, b => .setBFromAcc b
  | .DRAW_PIXEL, b => .drawPixel b
  | .CLEAR_SCREEN, b => .clearScreen b
  | .KEY_AVAILABLE, b => .keyAvailable b
  | .GET_KEY, b => .getKey b
  | .PEEK_KEY, b => .peekKey b
  | .LOG_ADD, b => .logAdd b
  | .LOG_LOAD, b => .logLoad b
  | .LOG_STORE, b => .logStore b
  | .LOG_PRINT, b => .logPrint b

/-- Why bytes are no instruction. -/
inductive Reject where
  /-- The opcode byte has no mapping in the opcode table (30_encoding.md R67). -/
  | unmappedOpcode (opcode : Byte)
  /-- Fewer than the two bytes that every instruction has (30_encoding.md R60). -/
  | truncated
  deriving DecidableEq, Repr

/-- The answer of the decoder. -/
inductive Decoded where
  | instr (i : Instr)
  | rejected (why : Reject)
  deriving DecidableEq, Repr

/-- The mnemonic an opcode byte stands for, if it is mapped (40_engine_cycle.md R95). -/
def OpMap.lookup (m : OpMap) (opcode : Byte) : Option Mnemonic :=
  (m.find? (fun e => e.1 == opcode)).map (fun e => e.2)

/-- The opcode byte of a mnemonic, if the map gives it one (30_encoding.md R65: the same table read the other way). -/
def OpMap.byteOf (m : OpMap) (k : Mnemonic) : Option Byte :=
  (m.find? (fun e => e.2 == k)).map (fun e => e.1)

/-- Decode depends on the opcode byte alone; the operand byte is only carried along (40_engine_cycle.md R95). -/
def decode (m : OpMap) (opcode opnd : Byte) : Decoded :=
  match m.lookup opcode with
  | some k => .instr (Instr.make k opnd)
  | none => .rejected (.unmappedOpcode opcode)

/-- Decoding a sequence of bytes two at a time: opcode at the lower address, then operand (30_encoding.md R60, R68). -/
def decodeBytes (m : OpMap) : List Byte → Decoded × List Byte
  | opcode :: opnd :: rest => (decode m opcode opnd, rest)
  | short => (.rejected .truncated, short)

/-- The two bytes of an instruction, opcode byte first, if the map gives its mnemonic a byte (30_encoding.md R60, R72). -/
def encode (m : OpMap) (i : Instr) : Option (Byte × Byte) :=
  (m.byteOf i.mnemonic).map (fun b => (b, i.operand))

/-- The opcode byte of the 16-bit word view `opcode * 256 + opnd` (30_encoding.md R64). -/
def wordOpcode (w : Nat) : Byte := BitVec.ofNat 8 (w / 256)

/-- The operand byte of the 16-bit word view (30_encoding.md R64). -/
def wordOperand (w : Nat) : Byte := BitVec.ofNat 8 w

/-- The instruction the standard decoder reads from a word of spec/opcode_table.json: opcode byte in bits 15:8, operand
byte in bits 7:0 (30_encoding.md R64); bits at or above `nbits` are 0 (assumption log 29). -/
def decodeTableWord (nbits w : Nat) : Option Instr :=
  match decode OpMap.standard (wordOpcode (w % 2 ^ nbits)) (wordOperand (w % 2 ^ nbits)) with
  | .instr i => some i
  | .rejected _ => none

end Sys2Proof
end

