-- ==== Sys2Proof/Machine/Params.lean ====
section
/-! DEFINITION. The standard construction parameters and the reset values that the spec decides where its source is silent
(00_scope.md R5, 10_state.md R25). -/

namespace Sys2Proof.Machine

/-- The default parameters of 00_scope.md R5: N = 256, a 64 by 64 grid, the table of 30_encoding.md R63, `imm`. The tick
has no value in the spec and no role (assumption log 19). -/
def standardConfig : Config where
  memSize := 256
  fbW := 64
  fbH := 64
  opmap := OpMap.standard
  logAddMode := .imm
  tick := 1

/-- `ACC` after reset (10_state.md R25, spec decision D4; assumption log 2). -/
def resetAcc : Byte := 0

/-- `PC` after reset (10_state.md R25, spec decision D4; assumption log 2). -/
def resetPc : Addr := 0

/-- `LOG` after reset (10_state.md R25, spec decision D4; assumption log 2). -/
def resetLog : Byte := 0

/-- Each of `FB.X`, `FB.Y`, `FB.R`, `FB.G`, `FB.B` after reset (10_state.md R25, spec decision D5; assumption log 3). -/
def resetFbReg : Byte := 0

/-- What a memory cell that is not listed reads as (10_state.md R21, spec decision D7; assumption log 5). -/
def unlistedByte : Byte := 0

end Sys2Proof.Machine
end

