-- ==== Sys2Proof/Machine/State.lean ====
section
/-! DEFINITION. The state of the block as plain data (10_state.md), the reasons a step can stop, and the state after reset
(10_state.md R25, 70_reset_and_hazards.md R250 to R252). -/

namespace Sys2Proof.Machine

/-- Memory: the cells that do not hold `unlistedByte`, addresses strictly rising (10_state.md R21, 20_memory.md R40). -/
abbrev Memory := List Host.Cell

/-- One grid cell, a triple of bytes (10_state.md R18). -/
structure Pixel where
  r : Byte
  g : Byte
  b : Byte
  deriving DecidableEq, Repr

/-- `FB.GRID`: the cells that are not black, by the key `y * FB_W + x`, keys strictly rising (10_state.md R18; the key is
the model's own and nothing observes it, assumption log 16). -/
abbrev Grid := List (Nat × Pixel)

/-- The framebuffer device (43_display.md R150): five byte registers, the grid and the dirty flag. -/
structure Framebuffer where
  x : Byte
  y : Byte
  r : Byte
  g : Byte
  b : Byte
  grid : Grid
  dirty : Bool
  deriving DecidableEq, Repr

/-- `HALT_CAUSE`, the diagnostic record of why the engine stopped (10_state.md R14). -/
inductive HaltCause where
  | none | hlt | unmappedOpcode | endOfMemory | hostStop
  deriving DecidableEq, Repr

/-- An event on the observability surface `OUT` (45_logging.md R205). -/
inductive Event where
  /-- One executed instruction: its address, opcode byte and operand byte (40_engine_cycle.md R97). -/
  | trace (a : Addr) (opcode opnd : Byte)
  /-- The unmapped-opcode report: "the address and byte value" (40_engine_cycle.md R96). -/
  | unmappedOpcode (a : Addr) (opcode : Byte)
  /-- `LOG_PRINT`: the value of the log register (45_logging.md R204). -/
  | logPrint (v : Byte)
  deriving DecidableEq, Repr

/-- A move the host may make between two engine steps and that changes the block's state (60_exceptions.md R240). -/
inductive HostMove where
  /-- A push at the level of codes (44_input.md R181). -/
  | pushCode (c : Byte)
  /-- A push of a symbolic key through the key table (44_input.md R181). -/
  | pushKey (k : KeySymbol)
  /-- The renderer's reset of the dirty flag, an access apart from its read (43_display.md R155). -/
  | resetDirty
  /-- The host clears the running flag (40_engine_cycle.md R100). -/
  | stop
  deriving DecidableEq, Repr

/-- Whose move comes next: the MODEL'S OWN form of the host's schedule (10_state.md R24; assumption log 13). -/
inductive Turn where
  | engine
  | host (move : HostMove)
  deriving DecidableEq, Repr

/-- Everything the spec gives the block (10_state.md R10 to R22), its parameters (00_scope.md R5) and the schedule. -/
structure State where
  /-- The construction parameters; no step writes them (00_scope.md R5; assumption log 20). -/
  cfg : Config
  /-- `ACC` (10_state.md R10). -/
  acc : Byte
  /-- `PC` (10_state.md R11). -/
  pc : Addr
  /-- `LOG` (10_state.md R12). -/
  log : Byte
  /-- `RUN` (10_state.md R13). -/
  run : Bool
  /-- `HALT_CAUSE` (10_state.md R14). -/
  haltCause : HaltCause
  /-- The framebuffer device (10_state.md R17 to R19). -/
  fb : Framebuffer
  /-- `INQ`, front first (10_state.md R20). -/
  inq : List Byte
  /-- `MEM` (10_state.md R21). -/
  mem : Memory
  /-- `OUT`, oldest first (10_state.md R22). -/
  out : List Event
  /-- Whose moves come next; when it is empty the engine moves (assumption log 13). -/
  turns : List Turn
  deriving DecidableEq, Repr

/-- Why the machine stops with a fault. -/
inductive Fault where
  /-- A memory index outside `[0, N)`: "a fatal condition for Memory" (20_memory.md R43, 60_exceptions.md R220). Raised by
  `memRead` and `memWrite`, so by an instruction that names a cell beyond N, which no legal configuration allows
  (N >= 256). Safe: the machine stops. -/
  | memoryOutOfRange (addr : Nat)
  deriving DecidableEq, Repr

/-- Why something is given no meaning. -/
inductive Refusal where
  /-- An instruction without a meaning; raised by `exec` for an arm not yet modelled (none is left). Safe. -/
  | notModelled (mnemonic : String)
  /-- The loader was given an address outside `[0, N)`; raised by `load` (60_exceptions.md R224). Safe. -/
  | loadOutOfRange (addr : Nat)
  /-- Construction with parameters 00_scope.md R5 does not allow; raised by `construct`. Safe. -/
  | badParameters
  deriving DecidableEq, Repr

/-- The framebuffer after construction (10_state.md R25). -/
def Framebuffer.initial : Framebuffer where
  x := resetFbReg
  y := resetFbReg
  r := resetFbReg
  g := resetFbReg
  b := resetFbReg
  grid := []
  dirty := false

/-- The machine after construction with given parameters and before anything is loaded (10_state.md R25,
70_reset_and_hazards.md R250, R251). -/
def State.initial (cfg : Config) : State where
  cfg := cfg
  acc := resetAcc
  pc := resetPc
  log := resetLog
  run := true
  haltCause := .none
  fb := Framebuffer.initial
  inq := []
  mem := []
  out := []
  turns := []

/-- The machine right after reset, with the standard parameters (10_state.md R25). -/
def State.reset : State := State.initial standardConfig

end Sys2Proof.Machine
end

