-- ==== Sys2Proof/Machine/Memory.lean ====
section
/-! DEFINITION. Sparse data in one canonical form, and memory and grid as instances of it. A listed key is unique and holds
something other than what an unlisted key reads as, so equal contents are equal lists. -/

namespace Sys2Proof.Machine

variable {α : Type}

/-- The value under a key; `d` where the key is not listed. -/
def sparseRead (d : α) : List (Nat × α) → Nat → α
  | [], _ => d
  | (k, v) :: rest, key => if k = key then v else sparseRead d rest key

/-- The list without a key. -/
def sparseErase (m : List (Nat × α)) (key : Nat) : List (Nat × α) :=
  m.filter (fun e => e.1 != key)

/-- The list with a pair put before the first larger key. -/
def sparseInsert (key : Nat) (v : α) : List (Nat × α) → List (Nat × α)
  | [] => [(key, v)]
  | e :: rest => if key < e.1 then (key, v) :: e :: rest else e :: sparseInsert key v rest

/-- Write: the key's old entry goes, and a value other than the unlisted one is listed in order. -/
def sparseWrite [DecidableEq α] (d : α) (m : List (Nat × α)) (key : Nat) (v : α) : List (Nat × α) :=
  if v = d then sparseErase m key else sparseInsert key v (sparseErase m key)

/-- The canonical form: keys strictly rising, no value equal to the unlisted one. -/
def sparseWf [DecidableEq α] (d : α) (m : List (Nat × α)) : Bool :=
  decide (m.Pairwise (fun e f => e.1 < f.1)) && m.all (fun e => e.2 != d)

/-- Every key is below a bound. -/
def sparseBelow (n : Nat) (m : List (Nat × α)) : Bool := m.all (fun e => decide (e.1 < n))

/-- The byte a cell holds (20_memory.md R40, R41). -/
def Memory.read (m : Memory) (a : Nat) : Byte := sparseRead unlistedByte m a

/-- Memory with one cell set and every other cell unchanged (20_memory.md R42). -/
def Memory.write (m : Memory) (a : Nat) (v : Byte) : Memory := sparseWrite unlistedByte m a v

/-- Memory is in its canonical form. -/
def Memory.wf (m : Memory) : Bool := sparseWf unlistedByte m

/-- Every listed cell lies inside `[0, n)` (20_memory.md R40). -/
def Memory.below (m : Memory) (n : Nat) : Bool := sparseBelow n m

/-- `(0, 0, 0)`, the value of a cleared cell and of an out-of-range `get_pixel` (43_display.md R153, R154). -/
def Pixel.black : Pixel := ⟨0, 0, 0⟩

/-- The grid is in its canonical form. -/
def Grid.wf (g : Grid) : Bool := sparseWf Pixel.black g

/-- Every listed grid cell lies inside the `w * h` cells. -/
def Grid.below (g : Grid) (n : Nat) : Bool := sparseBelow n g

end Sys2Proof.Machine
end

