-- ==== Sys2Proof/Machine/Ops.lean ====
section
/-! DEFINITION. The named operations over the state: register writes, the bounds-checked memory accesses of 20_memory.md
R41 to R43, the observability surface, and stopping the engine. This machine has no exception entry and no return: when a
stopping condition fires "the engine saves nothing and transfers control nowhere" (60_exceptions.md R228, R229), so `halt`
is the whole of it. -/

namespace Sys2Proof.Machine

/-- `ACC <- v`. -/
def State.setAcc (v : Byte) (s : State) : State := { s with acc := v }

/-- `pc <- target`. -/
def State.setPc (target : Addr) (s : State) : State := { s with pc := target }

/-- `LOG <- v`. -/
def State.setLog (v : Byte) (s : State) : State := { s with log := v }

/-- The framebuffer device takes a new state. -/
def State.setFb (fb : Framebuffer) (s : State) : State := { s with fb := fb }

/-- `INQ <- q`. -/
def State.setInq (q : List Byte) (s : State) : State := { s with inq := q }

/-- Memory takes new contents. -/
def State.setMem (m : Memory) (s : State) : State := { s with mem := m }

/-- The schedule takes a new value (assumption log 13). -/
def State.setTurns (ts : List Turn) (s : State) : State := { s with turns := ts }

/-- `emit e`: append to `OUT` (00_scope.md R7, 10_state.md R22). -/
def State.emit (e : Event) (s : State) : State := { s with out := s.out ++ [e] }

/-- The engine goes to Halted: `RUN <- false` and the diagnostic cause (60_exceptions.md R228, 10_state.md R14). -/
def State.halt (c : HaltCause) (s : State) : State := { s with run := false, haltCause := c }

/-- `MemRead(addr, 1)` (20_memory.md R41, R43). -/
def memRead (a : Nat) (s : State) : Except Fault Byte :=
  if a < s.cfg.memSize then .ok (s.mem.read a) else .error (.memoryOutOfRange a)

/-- `MemWrite(addr, 1, v)` (20_memory.md R42, R43). -/
def memWrite (a : Nat) (v : Byte) (s : State) : Except Fault State :=
  if a < s.cfg.memSize then .ok (s.setMem (s.mem.write a v)) else .error (.memoryOutOfRange a)

/-- The outcome of an instruction whose last act may fault. -/
def finish : Except Fault State → Host.Outcome State Fault Refusal
  | .ok s => .next s
  | .error f => .fault f

end Sys2Proof.Machine
end

