-- ==== Sys2Proof/Machine/Operands.lean ====
section
/-! DEFINITION. The operand forms of 30_encoding.md R61: a data address, a code address, an immediate (the byte itself, so
it needs no operation), and none. There is one addressing mode, absolute (41_control.md R121). -/

namespace Sys2Proof.Machine

/-- `zext_16(v)`: the byte as a 16-bit value with the high 8 bits zero (00_scope.md R7). -/
def zext16 (v : Byte) : Addr := v.setWidth 16

/-- The effective address of a data operand (30_encoding.md R61, 41_control.md R121). -/
def dataAddress (opnd : Byte) : Nat := (zext16 opnd).toNat

/-- The target of a jump (30_encoding.md R61, 41_control.md R120). -/
def jumpTarget (opnd : Byte) : Addr := zext16 opnd

/-- The byte a data operand names (20_memory.md R46). -/
def readData (opnd : Byte) (s : State) : Except Fault Byte := memRead (dataAddress opnd) s

/-- Read the data operand and go on with its value; a fault of the read is the instruction's. -/
def withData (opnd : Byte) (s : State) (k : Byte → State) : Host.Outcome State Fault Refusal :=
  match readData opnd s with
  | .ok v => .next (k v)
  | .error f => .fault f

/-- Write a byte to the cell a data operand names (20_memory.md R46). -/
def writeData (opnd v : Byte) (s : State) : Except Fault State := memWrite (dataAddress opnd) v s

end Sys2Proof.Machine
end

