-- ==== Sys2Proof/Machine/Flags.lean ====
section
/-! DEFINITION. The machine has no flags (10_state.md R15). What stands in their place: the unsigned comparisons, whose
boolean result goes into ACC as 0 or 1 (42_compare.md R130), and the zero test of ACC that the conditional jumps and `NOT`
make (41_control.md R116, R117, 42_compare.md R137). -/

namespace Sys2Proof.Machine

/-- "the byte 1 for true and the byte 0 for false" (42_compare.md R130). -/
def boolByte (b : Bool) : Byte := if b then 1 else 0

/-- `ACC != K` (42_compare.md R131). -/
def differs (a k : Byte) : Bool := a != k

/-- `ACC > K`, unsigned (42_compare.md R133). -/
def greater (a k : Byte) : Bool := decide (k.toNat < a.toNat)

/-- `ACC < K`, unsigned (42_compare.md R135). -/
def less (a k : Byte) : Bool := decide (a.toNat < k.toNat)

/-- `ACC = 0`, a test on all eight bits (41_control.md R116). -/
def isZero (a : Byte) : Bool := a == 0

end Sys2Proof.Machine
end

