-- ==== Sys2Proof/Machine/Devices.lean ====
section
/-! DEFINITION. The two devices' operations: the framebuffer's `set_reg`, `draw_pixel`, `clear`, `get_pixel` and the dirty
flag (43_display.md R151 to R155), and the input queue's `push`, `has_key`, `pop_key`, `peek_key` (44_input.md R181 to
R184). -/

namespace Sys2Proof.Machine

/-- The five framebuffer registers (10_state.md R17). -/
inductive FbReg where
  | x | y | r | g | b
  deriving DecidableEq, Repr

/-- `set_reg(r, v)`: no bounds check, grid and flag untouched (43_display.md R151). -/
def Framebuffer.setReg (reg : FbReg) (v : Byte) (fb : Framebuffer) : Framebuffer :=
  match reg with
  | .x => { fb with x := v }
  | .y => { fb with y := v }
  | .r => { fb with r := v }
  | .g => { fb with g := v }
  | .b => { fb with b := v }

/-- The grid key of a cell (assumption log 16). -/
def cellKey (w x y : Nat) : Nat := y * w + x

/-- `X < FB_W and Y < FB_H`, unsigned (43_display.md R152). -/
def Framebuffer.inBounds (w h : Nat) (fb : Framebuffer) : Bool :=
  decide (fb.x.toNat < w) && decide (fb.y.toNat < h)

/-- `draw_pixel()`: in bounds it writes the cell and sets dirty; otherwise nothing at all (43_display.md R152,
90_conflicts.md C2). -/
def Framebuffer.drawPixel (w h : Nat) (fb : Framebuffer) : Framebuffer :=
  if fb.inBounds w h then
    { fb with
      grid := sparseWrite Pixel.black fb.grid (cellKey w fb.x.toNat fb.y.toNat) ⟨fb.r, fb.g, fb.b⟩
      dirty := true }
  else fb

/-- `clear()`: every cell black, dirty set, registers unchanged (43_display.md R153). -/
def Framebuffer.clear (fb : Framebuffer) : Framebuffer := { fb with grid := [], dirty := true }

/-- `get_pixel(x, y)`, host side: the stored colour, black out of range (43_display.md R154). -/
def Framebuffer.getPixel (w h : Nat) (fb : Framebuffer) (x y : Nat) : Pixel :=
  if x < w ∧ y < h then sparseRead Pixel.black fb.grid (cellKey w x y) else Pixel.black

/-- The renderer's reset of the dirty flag (43_display.md R155). -/
def Framebuffer.resetDirty (fb : Framebuffer) : Framebuffer := { fb with dirty := false }

/-- `get_pixel` of the whole machine (60_exceptions.md R237). -/
def State.getPixel (s : State) (x y : Nat) : Pixel := s.fb.getPixel s.cfg.fbW s.cfg.fbH x y

/-- `has_key()` (44_input.md R182). -/
def hasKey (q : List Byte) : Bool := !q.isEmpty

/-- `peek_key()`: the front, or the default 0 (44_input.md R184). -/
def peekKey (q : List Byte) : Byte := q.headD 0

/-- What `pop_key()` leaves: the queue without its front; an empty queue stays empty (44_input.md R183). -/
def popRest (q : List Byte) : List Byte := q.tail

/-- What `pop_key()` returns: the front, or the default 0 (44_input.md R183). -/
def popKey (q : List Byte) : Byte := q.headD 0

/-- `push_code(c)`: append at the back; the queue never refuses (44_input.md R181). -/
def pushCode (c : Byte) (q : List Byte) : List Byte := q ++ [c]

/-- `KEYMAP`: a named key has its fixed code, any other symbol has none (44_input.md R181; assumption log 18). -/
def keymap : KeySymbol → Option Byte
  | .named k => some (keyCode k)
  | .other _ => none

/-- `push(key_symbol)`: unmapped symbols are dropped (44_input.md R181). -/
def pushKey (k : KeySymbol) (q : List Byte) : List Byte :=
  match keymap k with
  | some c => pushCode c q
  | none => q

end Sys2Proof.Machine
end

