-- ==== Sys2Proof/Machine/Control.lean ====
section
/-! DEFINITION. Control, load/store and arithmetic (41_control.md). Each meaning is the execute step, entered with `PC`
already advanced (00_scope.md R8). -/

namespace Sys2Proof.Machine

/-- `NOP` (41_control.md R110). -/
def execNop (s : State) : Host.Outcome State Fault Refusal := .next s

/-- `LOAD addr`: `ACC <- MEM[addr]` (41_control.md R111). -/
def execLoad (addr : Byte) (s : State) : Host.Outcome State Fault Refusal :=
  withData addr s (fun v => s.setAcc v)

/-- `STORE addr`: `MEM[addr] <- ACC` (41_control.md R112). -/
def execStore (addr : Byte) (s : State) : Host.Outcome State Fault Refusal :=
  finish (writeData addr s.acc s)

/-- `ADD addr`: modulo 256 (41_control.md R113). -/
def execAdd (addr : Byte) (s : State) : Host.Outcome State Fault Refusal :=
  withData addr s (fun v => s.setAcc (s.acc + v))

/-- `SUB addr`: the memory operand is the subtrahend, modulo 256 (41_control.md R114). -/
def execSub (addr : Byte) (s : State) : Host.Outcome State Fault Refusal :=
  withData addr s (fun v => s.setAcc (s.acc - v))

/-- `JMP addr` (41_control.md R115). -/
def execJmp (target : Byte) (s : State) : Host.Outcome State Fault Refusal :=
  .next (s.setPc (jumpTarget target))

/-- `JZ addr`: jumps when `ACC` is zero (41_control.md R116). -/
def execJz (target : Byte) (s : State) : Host.Outcome State Fault Refusal :=
  .next (if isZero s.acc then s.setPc (jumpTarget target) else s)

/-- `JNZ addr`: jumps when `ACC` is not zero (41_control.md R117). -/
def execJnz (target : Byte) (s : State) : Host.Outcome State Fault Refusal :=
  .next (if isZero s.acc then s else s.setPc (jumpTarget target))

/-- `HLT`: the normal end of a program (41_control.md R118). -/
def execHlt (s : State) : Host.Outcome State Fault Refusal := .next (s.halt .hlt)

end Sys2Proof.Machine
end

