-- ==== Sys2Proof/Machine/Compare.lean ====
section
/-! DEFINITION. The comparison instructions (42_compare.md): `ACC` becomes 0 or 1; both sides are unsigned (R130). -/

namespace Sys2Proof.Machine

/-- `CMP addr`: 1 if the cell DIFFERS from `ACC`, else 0 (42_compare.md R131). -/
def execCmp (addr : Byte) (s : State) : Host.Outcome State Fault Refusal :=
  withData addr s (fun k => s.setAcc (boolByte (differs s.acc k)))

/-- `CMP_VAL imm` (42_compare.md R132). -/
def execCmpVal (imm : Byte) (s : State) : Host.Outcome State Fault Refusal :=
  .next (s.setAcc (boolByte (differs s.acc imm)))

/-- `GT addr` (42_compare.md R133). -/
def execGt (addr : Byte) (s : State) : Host.Outcome State Fault Refusal :=
  withData addr s (fun k => s.setAcc (boolByte (greater s.acc k)))

/-- `GT_VAL imm` (42_compare.md R134). -/
def execGtVal (imm : Byte) (s : State) : Host.Outcome State Fault Refusal :=
  .next (s.setAcc (boolByte (greater s.acc imm)))

/-- `LT addr` (42_compare.md R135). -/
def execLt (addr : Byte) (s : State) : Host.Outcome State Fault Refusal :=
  withData addr s (fun k => s.setAcc (boolByte (less s.acc k)))

/-- `LT_VAL imm` (42_compare.md R136). -/
def execLtVal (imm : Byte) (s : State) : Host.Outcome State Fault Refusal :=
  .next (s.setAcc (boolByte (less s.acc imm)))

/-- `NOT`: logical negation, not a bitwise complement (42_compare.md R137). -/
def execNot (s : State) : Host.Outcome State Fault Refusal :=
  .next (s.setAcc (boolByte (isZero s.acc)))

end Sys2Proof.Machine
end

