-- ==== Sys2Proof/Machine/Display.lean ====
section
/-! DEFINITION. The display instructions, thin dispatches onto the framebuffer device (43_display.md). The `SET_*` operand
is an immediate (90_conflicts.md C1). -/

namespace Sys2Proof.Machine

/-- The device's `set_reg` within the machine (43_display.md R151). -/
def State.setFbReg (reg : FbReg) (v : Byte) (s : State) : State := s.setFb (s.fb.setReg reg v)

/-- `SET_X imm` (43_display.md R156). -/
def execSetX (imm : Byte) (s : State) : Host.Outcome State Fault Refusal := .next (s.setFbReg .x imm)

/-- `SET_Y imm` (43_display.md R157). -/
def execSetY (imm : Byte) (s : State) : Host.Outcome State Fault Refusal := .next (s.setFbReg .y imm)

/-- `SET_R imm` (43_display.md R158). -/
def execSetR (imm : Byte) (s : State) : Host.Outcome State Fault Refusal := .next (s.setFbReg .r imm)

/-- `SET_G imm` (43_display.md R159). -/
def execSetG (imm : Byte) (s : State) : Host.Outcome State Fault Refusal := .next (s.setFbReg .g imm)

/-- `SET_B imm` (43_display.md R160). -/
def execSetB (imm : Byte) (s : State) : Host.Outcome State Fault Refusal := .next (s.setFbReg .b imm)

/-- `SET_X_FROM_ACC` (43_display.md R161). -/
def execSetXFromAcc (s : State) : Host.Outcome State Fault Refusal := .next (s.setFbReg .x s.acc)

/-- `SET_Y_FROM_ACC` (43_display.md R162). -/
def execSetYFromAcc (s : State) : Host.Outcome State Fault Refusal := .next (s.setFbReg .y s.acc)

/-- `SET_R_FROM_ACC` (43_display.md R163). -/
def execSetRFromAcc (s : State) : Host.Outcome State Fault Refusal := .next (s.setFbReg .r s.acc)

/-- `SET_G_FROM_ACC` (43_display.md R164). -/
def execSetGFromAcc (s : State) : Host.Outcome State Fault Refusal := .next (s.setFbReg .g s.acc)

/-- `SET_B_FROM_ACC` (43_display.md R165). -/
def execSetBFromAcc (s : State) : Host.Outcome State Fault Refusal := .next (s.setFbReg .b s.acc)

/-- `DRAW_PIXEL` (43_display.md R166). -/
def execDrawPixel (s : State) : Host.Outcome State Fault Refusal :=
  .next (s.setFb (s.fb.drawPixel s.cfg.fbW s.cfg.fbH))

/-- `CLEAR_SCREEN` (43_display.md R167). -/
def execClearScreen (s : State) : Host.Outcome State Fault Refusal := .next (s.setFb s.fb.clear)

end Sys2Proof.Machine
end

