-- ==== Sys2Proof/Machine/Input.lean ====
section
/-! DEFINITION. The input instructions (44_input.md R186 to R188). None of them waits. -/

namespace Sys2Proof.Machine

/-- `KEY_AVAILABLE` (44_input.md R186). -/
def execKeyAvailable (s : State) : Host.Outcome State Fault Refusal :=
  .next (s.setAcc (boolByte (hasKey s.inq)))

/-- `GET_KEY` (44_input.md R187). -/
def execGetKey (s : State) : Host.Outcome State Fault Refusal :=
  .next ((s.setAcc (popKey s.inq)).setInq (popRest s.inq))

/-- `PEEK_KEY` (44_input.md R188). -/
def execPeekKey (s : State) : Host.Outcome State Fault Refusal := .next (s.setAcc (peekKey s.inq))

end Sys2Proof.Machine
end

