-- ==== Sys2Proof/Machine/Logging.lean ====
section
/-! DEFINITION. The logging instructions (45_logging.md R200 to R204). -/

namespace Sys2Proof.Machine

/-- `LOG_ADD`: modulo 256; the addend is the operand byte, or the cell it names when the parameter `LOG_ADD_MODE` says so
(45_logging.md R201, spec decision D12; assumption log 10). -/
def execLogAdd (opnd : Byte) (s : State) : Host.Outcome State Fault Refusal :=
  match s.cfg.logAddMode with
  | .imm => .next (s.setLog (s.log + opnd))
  | .mem => withData opnd s (fun v => s.setLog (s.log + v))

/-- `LOG_LOAD`: `ACC <- LOG` (45_logging.md R202). -/
def execLogLoad (s : State) : Host.Outcome State Fault Refusal := .next (s.setAcc s.log)

/-- `LOG_STORE`: `LOG <- ACC` (45_logging.md R203). -/
def execLogStore (s : State) : Host.Outcome State Fault Refusal := .next (s.setLog s.acc)

/-- `LOG_PRINT`: one event with the value of `LOG` (45_logging.md R204). -/
def execLogPrint (s : State) : Host.Outcome State Fault Refusal := .next (s.emit (.logPrint s.log))

end Sys2Proof.Machine
end

