-- ==== Sys2Proof/Machine/Dispatch.lean ====
section
/-! DEFINITION. One arm per instruction. The ignored operand byte of the kind `none` reaches no meaning (30_encoding.md R66). -/

namespace Sys2Proof.Machine

def exec (i : Instr) (s : State) : Host.Outcome State Fault Refusal :=
  match i with
  | .nop _ => Sys2Proof.Machine.execNop s
  | .load addr => Sys2Proof.Machine.execLoad addr s
  | .store addr => Sys2Proof.Machine.execStore addr s
  | .add addr => Sys2Proof.Machine.execAdd addr s
  | .sub addr => Sys2Proof.Machine.execSub addr s
  | .jmp target => Sys2Proof.Machine.execJmp target s
  | .jz target => Sys2Proof.Machine.execJz target s
  | .jnz target => Sys2Proof.Machine.execJnz target s
  | .hlt _ => Sys2Proof.Machine.execHlt s
  | .cmp addr => Sys2Proof.Machine.execCmp addr s
  | .cmpVal imm => Sys2Proof.Machine.execCmpVal imm s
  | .gt addr => Sys2Proof.Machine.execGt addr s
  | .gtVal imm => Sys2Proof.Machine.execGtVal imm s
  | .lt addr => Sys2Proof.Machine.execLt addr s
  | .ltVal imm => Sys2Proof.Machine.execLtVal imm s
  | .notAcc _ => Sys2Proof.Machine.execNot s
  | .setX imm => Sys2Proof.Machine.execSetX imm s
  | .setY imm => Sys2Proof.Machine.execSetY imm s
  | .setR imm => Sys2Proof.Machine.execSetR imm s
  | .setG imm => Sys2Proof.Machine.execSetG imm s
  | .setB imm => Sys2Proof.Machine.execSetB imm s
  | .setXFromAcc _ => Sys2Proof.Machine.execSetXFromAcc s
  | .setYFromAcc _ => Sys2Proof.Machine.execSetYFromAcc s
  | .setRFromAcc _ => Sys2Proof.Machine.execSetRFromAcc s
  | .setGFromAcc _ => Sys2Proof.Machine.execSetGFromAcc s
  | .setBFromAcc _ => Sys2Proof.Machine.execSetBFromAcc s
  | .drawPixel _ => Sys2Proof.Machine.execDrawPixel s
  | .clearScreen _ => Sys2Proof.Machine.execClearScreen s
  | .keyAvailable _ => Sys2Proof.Machine.execKeyAvailable s
  | .getKey _ => Sys2Proof.Machine.execGetKey s
  | .peekKey _ => Sys2Proof.Machine.execPeekKey s
  | .logAdd opnd => Sys2Proof.Machine.execLogAdd opnd s
  | .logLoad _ => Sys2Proof.Machine.execLogLoad s
  | .logStore _ => Sys2Proof.Machine.execLogStore s
  | .logPrint _ => Sys2Proof.Machine.execLogPrint s

end Sys2Proof.Machine
end

