-- ==== Sys2Proof/Machine/Engine.lean ====
section
/-! DEFINITION. The engine's one step (40_engine_cycle.md R90 to R97): the tests before the fetch, fetch, advance, decode,
trace, execute. -/

namespace Sys2Proof.Machine

/-- `PC + 1 >= N`, without wrap-around (40_engine_cycle.md R91; assumption log 7). -/
def State.atEndOfMemory (s : State) : Bool := decide (s.cfg.memSize ≤ s.pc.toNat + 1)

/-- The opcode byte at `PC` and the operand byte at `PC + 1`, both through `MemRead` (40_engine_cycle.md R93). -/
def fetch (s : State) : Except Fault (Byte × Byte) :=
  match memRead s.pc.toNat s, memRead (s.pc.toNat + 1) s with
  | .ok opcode, .ok opnd => .ok (opcode, opnd)
  | .error f, _ => .error f
  | _, .error f => .error f

/-- `(PC + 2) mod 65536` (40_engine_cycle.md R94; assumption log 8). -/
def advancedPc (pc : Addr) : Addr := pc + 2

/-- The state in which a mapped instruction executes: `PC` advanced and the trace emitted (40_engine_cycle.md R92, R97). -/
def State.fetched (opcode opnd : Byte) (s : State) : State :=
  (s.setPc (advancedPc s.pc)).emit (.trace s.pc opcode opnd)

/-- An unmapped opcode: report the opcode byte's address and value, then stop, with `PC` advanced (40_engine_cycle.md R96;
assumption log 11). -/
def State.stopUnmapped (opcode : Byte) (s : State) : State :=
  ((s.setPc (advancedPc s.pc)).emit (.unmappedOpcode s.pc opcode)).halt .unmappedOpcode

/-- Decode and execute two fetched bytes (40_engine_cycle.md R92, R95). -/
def dispatch (opcode opnd : Byte) (s : State) : Host.Outcome State Fault Refusal :=
  match decode s.cfg.opmap opcode opnd with
  | .instr i => exec i (s.fetched opcode opnd)
  | .rejected _ => .next (s.stopUnmapped opcode)

/-- `engine_step()` (40_engine_cycle.md R92). A halted engine takes no step: its state stays (R91, R99). -/
def engineStep (s : State) : Host.Outcome State Fault Refusal :=
  if s.run = false then .next s
  else if s.atEndOfMemory then .next (s.halt .endOfMemory)
  else
    match fetch s with
    | .ok (opcode, opnd) => dispatch opcode opnd s
    | .error f => .fault f

end Sys2Proof.Machine
end

