-- ==== Sys2Proof/Machine/HostSide.lean ====
section
/-! DEFINITION. What the host does to the block: its moves between steps (60_exceptions.md R237 to R240), construction and
loading before the run (60_exceptions.md R236, R224, 70_reset_and_hazards.md R254), and what the renderer may see of the
grid during a step (43_display.md R168). -/

namespace Sys2Proof.Machine

/-- The host clears `RUN`; after the engine has halted for another cause that cause stands (40_engine_cycle.md R100). -/
def hostStop (s : State) : State := if s.run then s.halt .hostStop else s

/-- One host move (60_exceptions.md R240). -/
def hostMove (m : HostMove) (s : State) : State :=
  match m with
  | .pushCode c => s.setInq (pushCode c s.inq)
  | .pushKey k => s.setInq (pushKey k s.inq)
  | .resetDirty => s.setFb s.fb.resetDirty
  | .stop => hostStop s

/-- The loader: each cell of the image in order, a later entry over an earlier one; an address outside `[0, N)` is refused
(60_exceptions.md R224, R236). Loading is no engine step and emits nothing. -/
def load : List Host.Cell → State → Host.Outcome State Fault Refusal
  | [], s => .next s
  | (a, v) :: rest, s =>
    match memWrite a v s with
    | .ok t => load rest t
    | .error _ => .refused (.loadOutOfRange a)

/-- Construct a machine and load its image (60_exceptions.md R240, first row; 70_reset_and_hazards.md R254). -/
def construct (cfg : Config) (image : List Host.Cell) : Host.Outcome State Fault Refusal :=
  if cfg.wf then load image (State.initial cfg) else .refused .badParameters

/-- One write of the engine to the framebuffer that the renderer may see alone: "writes are per-byte" (43_display.md R168). -/
inductive FbWrite where
  | red (x y : Nat) (v : Byte)
  | green (x y : Nat) (v : Byte)
  | blue (x y : Nat) (v : Byte)
  | setDirty
  deriving DecidableEq, Repr

/-- A grid cell replaced by a function of itself. -/
def Framebuffer.updateCell (w : Nat) (fb : Framebuffer) (x y : Nat) (f : Pixel → Pixel) : Framebuffer :=
  { fb with
    grid := sparseWrite Pixel.black fb.grid (cellKey w x y) (f (sparseRead Pixel.black fb.grid (cellKey w x y))) }

/-- The framebuffer after one such write. -/
def Framebuffer.applyWrite (w : Nat) (fb : Framebuffer) : FbWrite → Framebuffer
  | .red x y v => fb.updateCell w x y (fun p => { p with r := v })
  | .green x y v => fb.updateCell w x y (fun p => { p with g := v })
  | .blue x y v => fb.updateCell w x y (fun p => { p with b := v })
  | .setDirty => { fb with dirty := true }

/-- The framebuffer after a sequence of such writes. -/
def Framebuffer.applyWrites (w : Nat) (fb : Framebuffer) (ws : List FbWrite) : Framebuffer :=
  ws.foldl (fun f x => f.applyWrite w x) fb

/-- The writes `draw_pixel` is made of: R, G, B, then the flag; none out of bounds (43_display.md R168, spec decision D15;
assumption log 15). -/
def Framebuffer.drawWrites (w h : Nat) (fb : Framebuffer) : List FbWrite :=
  if fb.inBounds w h then
    [.red fb.x.toNat fb.y.toNat fb.r, .green fb.x.toNat fb.y.toNat fb.g, .blue fb.x.toNat fb.y.toNat fb.b, .setDirty]
  else []

/-- The three component bytes of a grid cell (10_state.md R18). -/
inductive Component where
  | red | green | blue
  deriving DecidableEq, Repr

/-- The write that zeroes one component byte of one cell. -/
def zeroWrite (byte : Component × Nat × Nat) : FbWrite :=
  match byte.1 with
  | .red => .red byte.2.1 byte.2.2 0
  | .green => .green byte.2.1 byte.2.2 0
  | .blue => .blue byte.2.1 byte.2.2 0

/-- The writes `clear` is made of: the grid, then the flag (43_display.md R168, spec decision D15). The order of the byte
writes is an argument: the spec leaves the order of the cells open and says nothing of the order of a cell's three bytes in
`clear`, and the model fixes neither (assumption log 15). -/
def clearWrites (bytes : List (Component × Nat × Nat)) : List FbWrite := bytes.map zeroWrite ++ [.setDirty]

/-- What a read of one component of a cell may give while a step goes from `old` to `new`: one of the two, never a third
(93_implementation_defined.md U19). -/
def tornByte (old new seen : Byte) : Bool := seen == old || seen == new

/-- Whether the renderer may read `seen` at a cell while a step goes from `s` to `t`: each component old or new,
independently (93_implementation_defined.md U19). -/
def mayShow (s t : State) (x y : Nat) (seen : Pixel) : Bool :=
  tornByte (s.getPixel x y).r (t.getPixel x y).r seen.r
    && tornByte (s.getPixel x y).g (t.getPixel x y).g seen.g
    && tornByte (s.getPixel x y).b (t.getPixel x y).b seen.b

end Sys2Proof.Machine
end

