-- ==== Sys2Proof/Machine/Step.lean ====
section
/-! DEFINITION. One step: one move of one agent, the engine or the host, as the schedule in State says (assumption log 13). -/

namespace Sys2Proof.Machine

/-- The next move. With nothing scheduled the engine moves, as 40_engine_cycle.md R92 says it does. -/
def step (s : State) : Host.Outcome State Fault Refusal :=
  match s.turns with
  | .host m :: rest => .next (hostMove m (s.setTurns rest))
  | .engine :: rest => engineStep (s.setTurns rest)
  | [] => engineStep s

/-- The state in which the very next step fetches and runs the instruction of the table's word `w`: the engine is to move,
it runs, its `PC` leaves room for two bytes, and they are the word's (assumption log 21). -/
def State.withFetchWord (s : State) (nbits w : Nat) : State :=
  let v := w % 2 ^ nbits
  let pc : Addr := if s.atEndOfMemory then 0 else s.pc
  { s with
    pc := pc
    run := true
    haltCause := .none
    mem := (s.mem.write pc.toNat (wordOpcode v)).write (pc.toNat + 1) (wordOperand v)
    turns := if s.turns = [] then [] else .engine :: s.turns }

end Sys2Proof.Machine
end

