-- ==== Sys2Proof/Machine/Toolchain.lean ====
section
/-! DEFINITION. The toolchain's view of the encoding, in scope by 00_scope.md R4: the Mnemonic Assembler (30_encoding.md
R69 to R72), the disassembly listing's content (R77), the memory image and layout convention (60_exceptions.md R236,
70_reset_and_hazards.md R255, R256). The compiler's idioms stand in Machine/Idioms.lean. Tokens are lists of characters. -/

namespace Sys2Proof.Machine

/-- A token of assembler input (30_encoding.md R69). -/
abbrev Token := List Char

/-- The spelling of a mnemonic, upper case with underscores (30_encoding.md R63, R70). -/
def mnemonicName : Mnemonic → Token
  | .NOP => ['N', 'O', 'P']
  | .LOAD => ['L', 'O', 'A', 'D']
  | .STORE => ['S', 'T', 'O', 'R', 'E']
  | .ADD => ['A', 'D', 'D']
  | .SUB => ['S', 'U', 'B']
  | .JMP => ['J', 'M', 'P']
  | .JZ => ['J', 'Z']
  | .JNZ => ['J', 'N', 'Z']
  | .HLT => ['H', 'L', 'T']
  | .CMP => ['C', 'M', 'P']
  | .CMP_VAL => ['C', 'M', 'P', '_', 'V', 'A', 'L']
  | .GT => ['G', 'T']
  | .GT_VAL => ['G', 'T', '_', 'V', 'A', 'L']
  | .LT => ['L', 'T']
  | .LT_VAL => ['L', 'T', '_', 'V', 'A', 'L']
  | .NOT => ['N', 'O', 'T']
  | .SET_X => ['S', 'E', 'T', '_', 'X']
  | .SET_Y => ['S', 'E', 'T', '_', 'Y']
  | .SET_R => ['S', 'E', 'T', '_', 'R']
  | .SET_G => ['S', 'E', 'T', '_', 'G']
  | .SET_B => ['S', 'E', 'T', '_', 'B']
  | .SET_X_FROM_ACC => ['S', 'E', 'T', '_', 'X', '_', 'F', 'R', 'O', 'M', '_', 'A', 'C', 'C']
  | .SET_Y_FROM_ACC => ['S', 'E', 'T', '_', 'Y', '_', 'F', 'R', 'O', 'M', '_', 'A', 'C', 'C']
  | .SET_R_FROM_ACC => ['S', 'E', 'T', '_', 'R', '_', 'F', 'R', 'O', 'M', '_', 'A', 'C', 'C']
  | .SET_G_FROM_ACC => ['S', 'E', 'T', '_', 'G', '_', 'F', 'R', 'O', 'M', '_', 'A', 'C', 'C']
  | .SET_B_FROM_ACC => ['S', 'E', 'T', '_', 'B', '_', 'F', 'R', 'O', 'M', '_', 'A', 'C', 'C']
  | .DRAW_PIXEL => ['D', 'R', 'A', 'W', '_', 'P', 'I', 'X', 'E', 'L']
  | .CLEAR_SCREEN => ['C', 'L', 'E', 'A', 'R', '_', 'S', 'C', 'R', 'E', 'E', 'N']
  | .KEY_AVAILABLE => ['K', 'E', 'Y', '_', 'A', 'V', 'A', 'I', 'L', 'A', 'B', 'L', 'E']
  | .GET_KEY => ['G', 'E', 'T', '_', 'K', 'E', 'Y']
  | .PEEK_KEY => ['P', 'E', 'E', 'K', '_', 'K', 'E', 'Y']
  | .LOG_ADD => ['L', 'O', 'G', '_', 'A', 'D', 'D']
  | .LOG_LOAD => ['L', 'O', 'G', '_', 'L', 'O', 'A', 'D']
  | .LOG_STORE => ['L', 'O', 'G', '_', 'S', 'T', 'O', 'R', 'E']
  | .LOG_PRINT => ['L', 'O', 'G', '_', 'P', 'R', 'I', 'N', 'T']

/-- The mnemonic a token names, by its exact spelling (30_encoding.md R70; assumption log 24). -/
def mnemonicOfToken (t : Token) : Option Mnemonic := Mnemonic.all.find? (fun k => mnemonicName k == t)

/-- The value of a decimal digit. -/
def decimalDigit (c : Char) : Option Nat :=
  if '0'.toNat ≤ c.toNat ∧ c.toNat ≤ '9'.toNat then some (c.toNat - '0'.toNat) else none

/-- The value of a hexadecimal digit, either case (assumption log 24). -/
def hexDigit (c : Char) : Option Nat :=
  if 'A'.toNat ≤ c.toNat ∧ c.toNat ≤ 'F'.toNat then some (c.toNat - 'A'.toNat + 10)
  else if 'a'.toNat ≤ c.toNat ∧ c.toNat ≤ 'f'.toNat then some (c.toNat - 'a'.toNat + 10)
  else decimalDigit c

/-- The value of a numeral, most significant digit first; none if some character is no digit. -/
def numeral (base : Nat) (digit : Char → Option Nat) : Token → Nat → Option Nat
  | [], acc => some acc
  | c :: rest, acc =>
    match digit c with
    | some d => numeral base digit rest (acc * base + d)
    | none => none

/-- A numeral needs at least one digit. -/
def nonemptyNumeral (base : Nat) (digit : Char → Option Nat) (t : Token) : Option Nat :=
  if t.isEmpty then none else numeral base digit t 0

/-- A decimal or `0x` hexadecimal numeral (30_encoding.md R71). -/
def literalValue : Token → Option Nat
  | '0' :: 'x' :: rest => nonemptyNumeral 16 hexDigit rest
  | t => nonemptyNumeral 10 decimalDigit t

/-- The operand byte of a literal: a failed parse, a value above 255 included, gives 0 and no diagnostic (30_encoding.md R71). -/
def operandLiteral (t : Token) : Byte :=
  match literalValue t with
  | some n => if n ≤ 255 then BitVec.ofNat 8 n else 0
  | none => 0

/-- Why assembly is aborted. -/
inductive AsmError where
  /-- "fails with an unknown-opcode condition, aborting the whole assembly" (30_encoding.md R70). -/
  | unknownOpcode (t : Token)
  deriving DecidableEq, Repr

/-- One pair of tokens to its two bytes, opcode byte first (30_encoding.md R70 to R72). -/
def assemblePair (m : OpMap) (mnemonic literal : Token) : Option (Byte × Byte) :=
  match mnemonicOfToken mnemonic with
  | some k => (m.byteOf k).map (fun b => (b, operandLiteral literal))
  | none => none

/-- The assembler: stateless and order-preserving, pair number k to bytes 2k and 2k+1 (30_encoding.md R69, R72). -/
def assemble (m : OpMap) : List (Token × Token) → Except AsmError (List Byte)
  | [] => .ok []
  | (mnemonic, literal) :: rest =>
    match assemblePair m mnemonic literal, assemble m rest with
    | some (opcode, opnd), .ok bytes => .ok (opcode :: opnd :: bytes)
    | some _, .error e => .error e
    | none, _ => .error (.unknownOpcode mnemonic)

/-- The disassembly listing's content: "the decoded mnemonic and operand" of each 2-byte instruction; no mnemonic for an
unmapped byte (30_encoding.md R77; its text format is not in the source). -/
def disassemble (m : OpMap) : List Byte → List (Option Mnemonic × Byte)
  | opcode :: opnd :: rest => (m.lookup opcode, opnd) :: disassemble m rest
  | _ => []

/-- The bytes of a sequence of instructions, under an opcode map (30_encoding.md R68, R72). -/
def encodeAll (m : OpMap) : List Instr → Option (List Byte)
  | [] => some []
  | i :: rest =>
    match encode m i, encodeAll m rest with
    | some (opcode, opnd), some bytes => some (opcode :: opnd :: bytes)
    | _, _ => none

/-- Bytes placed at consecutive addresses. -/
def placeAt (a : Nat) : List Byte → List Host.Cell
  | [] => []
  | b :: rest => (a, b) :: placeAt (a + 1) rest

/-- The memory image: the constants, then the program bytes from address 0, which win on overlap (60_exceptions.md R236,
70_reset_and_hazards.md R256). -/
def buildImage (constants : List Host.Cell) (program : List Byte) : List Host.Cell :=
  constants ++ placeAt 0 program

/-- Where the constant pool starts (70_reset_and_hazards.md R255). -/
def poolBase : Nat := 100

/-- Where variables start (70_reset_and_hazards.md R255). -/
def variableBase : Nat := 200

/-- Where the two scratch cells start (70_reset_and_hazards.md R255). -/
def scratchBase : Nat := 254

/-- The disjointness invariant of the layout convention, for a program length in bytes and numbers of constants and
variables (70_reset_and_hazards.md R255, R256): the engine does not check it. -/
def layoutDisjoint (programBytes constantCount variableCount : Nat) : Bool :=
  decide (programBytes ≤ poolBase) && decide (poolBase + constantCount ≤ variableBase)
    && decide (variableBase + variableCount ≤ scratchBase)

end Sys2Proof.Machine
end

