-- ==== Sys2Proof/Machine/Idioms.lean ====
section
/-! DEFINITION. The Source Compiler's instruction idioms and its allocation of memory cells, in scope by 00_scope.md R4: the
relational, control, expression and device-call idioms (30_encoding.md R73 to R76), the allocation of constants and variables
(70_reset_and_hazards.md R255), and the image they make. The source language's text is not modelled; a program is given as
the tree its idioms apply to. -/

namespace Sys2Proof.Machine

/-- Execute a sequence of instructions one after the other, without their fetches. -/
def execAll : List Instr → State → Host.Outcome State Fault Refusal
  | [], s => .next s
  | i :: rest, s =>
    match exec i s with
    | .next t => execAll rest t
    | .fault f => .fault f
    | .refused r => .refused r

/-! ## Relational idioms -/

/-- The source relations of 30_encoding.md R73. -/
inductive Relation where
  | ne | eq | gt | lt | ge | le
  deriving DecidableEq, Repr

/-- The right-hand side: a literal uses the `_VAL` form, a variable the memory form (30_encoding.md R73). -/
inductive RightSide where
  | literal (v : Byte)
  | cell (addr : Byte)
  deriving DecidableEq, Repr

/-- The compare instruction of a relation: `CMP`, `GT` or `LT`, in the form the right-hand side needs. -/
def relationCompare : Relation → RightSide → Instr
  | .ne, .literal v => .cmpVal v
  | .ne, .cell a => .cmp a
  | .eq, .literal v => .cmpVal v
  | .eq, .cell a => .cmp a
  | .gt, .literal v => .gtVal v
  | .gt, .cell a => .gt a
  | .lt, .literal v => .ltVal v
  | .lt, .cell a => .lt a
  | .ge, .literal v => .ltVal v
  | .ge, .cell a => .lt a
  | .le, .literal v => .gtVal v
  | .le, .cell a => .gt a

/-- Whether the compare is followed by `NOT` (30_encoding.md R73). -/
def relationNegates : Relation → Bool
  | .ne => false | .gt => false | .lt => false | .eq => true | .ge => true | .le => true

/-- The emitted sequence (30_encoding.md R73, the table). -/
def relationIdiom (rel : Relation) (k : RightSide) : List Instr :=
  if relationNegates rel then [relationCompare rel k, .notAcc 0] else [relationCompare rel k]

/-! ## Control idioms -/

/-- How many bytes a sequence of instructions takes (30_encoding.md R60, R68). -/
def codeBytes (code : List Instr) : Nat := 2 * code.length

/-- A jump target as an operand byte: one "beyond address 255 cannot be expressed" (30_encoding.md R74,
70_reset_and_hazards.md R262; refused as 93_implementation_defined.md U27 asks). -/
def labelByte (a : Nat) : Option Byte := if a ≤ 255 then some (BitVec.ofNat 8 a) else none

/-- `if (cond) { body }` at byte offset `base`: the condition, `JZ` over the body to the skip label, the body (30_encoding.md
R74; that the jump is `JZ` is derived there). The label stands right after the body. -/
def ifIdiom (base : Nat) (cond body : List Instr) : Option (List Instr) :=
  match labelByte (base + codeBytes cond + 2 + codeBytes body) with
  | some skip => some (cond ++ .jz skip :: body)
  | none => none

/-- `while (cond) { body }` at byte offset `base`: the loop-start label, the condition, `JZ` to the loop-end label, the body,
`JMP` back to loop-start, the loop-end label (30_encoding.md R74). -/
def whileIdiom (base : Nat) (cond body : List Instr) : Option (List Instr) :=
  match labelByte base, labelByte (base + codeBytes cond + 2 + codeBytes body + 2) with
  | some loopStart, some loopEnd => some (cond ++ .jz loopEnd :: body ++ [.jmp loopStart])
  | _, _ => none

/-! ## Expression idioms -/

/-- `l + r`: lower the left operand, store it to a scratch cell, lower the right operand, `ADD` the scratch cell
(30_encoding.md R75). -/
def sumCode (left right : List Instr) (scratch : Byte) : List Instr :=
  left ++ .store scratch :: right ++ [.add scratch]

/-- `l - r`: "two scratch cells to preserve operand order" (30_encoding.md R75). Both operands are parked, then the left one
is loaded and the right one subtracted, since the memory operand of `SUB` is the subtrahend (41_control.md R114). The spec
names the two cells' purpose and not the sequence, which is the model's (assumption log 28). -/
def differenceCode (left right : List Instr) (leftCell rightCell : Byte) : List Instr :=
  left ++ .store leftCell :: right ++ [.store rightCell, .load leftCell, .sub rightCell]

/-- The sum of two cells. -/
def sumIdiom (left right scratch : Byte) : List Instr := sumCode [.load left] [.load right] scratch

/-- Which scratch cells hold which operands: "not in the source" (30_encoding.md R75, 91_not_in_source.md N9), so every
lowering takes this assignment as an argument (assumption log 28). -/
structure Scratch where
  sumLeft : Byte
  differenceLeft : Byte
  differenceRight : Byte
  deriving DecidableEq, Repr

/-- The scratch cells are addresses 254 and 255, and a difference uses both (30_encoding.md R75). -/
def Scratch.wf (sc : Scratch) : Bool :=
  decide (scratchBase ≤ sc.sumLeft.toNat) && decide (scratchBase ≤ sc.differenceLeft.toNat)
    && decide (scratchBase ≤ sc.differenceRight.toNat) && decide (sc.differenceLeft ≠ sc.differenceRight)

/-- An expression of the source language (30_encoding.md R75); a variable is named by its token. -/
inductive Expr where
  | literal (v : Byte)
  | named (x : Token)
  | sum (l r : Expr)
  | difference (l r : Expr)
  deriving DecidableEq, Repr

/-- The literals an expression needs in the constant pool, in the order of their lowering. -/
def Expr.literals : Expr → List Byte
  | .literal v => [v]
  | .named _ => []
  | .sum l r => l.literals ++ r.literals
  | .difference l r => l.literals ++ r.literals

/-- The variables an expression uses, in the order of their lowering. -/
def Expr.names : Expr → List Token
  | .literal _ => []
  | .named x => [x]
  | .sum l r => l.names ++ r.names
  | .difference l r => l.names ++ r.names

/-! ## Allocation of cells -/

/-- The distinct members of a list, each where it occurs first. -/
def firstUses {α : Type} [DecidableEq α] : List α → List α
  | [] => []
  | a :: rest => a :: (firstUses rest).filter (fun b => b ≠ a)

/-- The cells a program's constants and variables have: the constants "deduplicated by value" from the pool's base on, the
variables by first use from their base on (70_reset_and_hazards.md R255). -/
structure Layout where
  constants : List Byte
  names : List Token
  deriving DecidableEq, Repr

/-- The pool address of a literal: 100, 101, ... (70_reset_and_hazards.md R255). -/
def Layout.constantAddress (L : Layout) (v : Byte) : Nat := poolBase + L.constants.idxOf v

/-- The address of a variable: 200, 201, ... (70_reset_and_hazards.md R255). -/
def Layout.variableAddress (L : Layout) (x : Token) : Nat := variableBase + L.names.idxOf x

/-- The literal's pool cell as an operand byte. -/
def Layout.constantByte (L : Layout) (v : Byte) : Byte := BitVec.ofNat 8 (L.constantAddress v)

/-- The variable's cell as an operand byte. -/
def Layout.variableByte (L : Layout) (x : Token) : Byte := BitVec.ofNat 8 (L.variableAddress x)

/-- "each constant-pool entry's literal value at its allocated address" (60_exceptions.md R236). -/
def Layout.constantCells (L : Layout) : List Host.Cell := placeAt poolBase L.constants

/-- Program, pool and variables keep apart (70_reset_and_hazards.md R255, R256). -/
def Layout.fits (L : Layout) (programBytes : Nat) : Bool :=
  layoutDisjoint programBytes L.constants.length L.names.length

/-- The lowering of an expression: a literal or a variable is "a load of it", the operators are their idioms
(30_encoding.md R75). -/
def Expr.lower (L : Layout) (sc : Scratch) : Expr → List Instr
  | .literal v => [.load (L.constantByte v)]
  | .named x => [.load (L.variableByte x)]
  | .sum l r => sumCode (l.lower L sc) (r.lower L sc) sc.sumLeft
  | .difference l r => differenceCode (l.lower L sc) (r.lower L sc) sc.differenceLeft sc.differenceRight

/-! ## Device calls -/

/-- `SET_X n` and its like (43_display.md R156 to R160). -/
def setImmediate : FbReg → Byte → Instr
  | .x, v => .setX v
  | .y, v => .setY v
  | .r, v => .setR v
  | .g, v => .setG v
  | .b, v => .setB v

/-- `SET_X_FROM_ACC` and its like (43_display.md R161 to R165). -/
def setFromAcc : FbReg → Instr
  | .x => .setXFromAcc 0
  | .y => .setYFromAcc 0
  | .r => .setRFromAcc 0
  | .g => .setGFromAcc 0
  | .b => .setBFromAcc 0

/-- One argument: "a direct immediate (if it parses as a literal)", or its lowering (`LOAD var`, or "a full expression")
followed by the matching `SET_*_FROM_ACC` (30_encoding.md R76). -/
def pixelArgument (L : Layout) (sc : Scratch) (reg : FbReg) : Expr → List Instr
  | .literal v => [setImmediate reg v]
  | .named x => Expr.lower L sc (.named x) ++ [setFromAcc reg]
  | .sum l r => Expr.lower L sc (.sum l r) ++ [setFromAcc reg]
  | .difference l r => Expr.lower L sc (.difference l r) ++ [setFromAcc reg]

/-- A set-pixel call: its five positional arguments, each in the form it needs, then `DRAW_PIXEL` (30_encoding.md R76). That
the positions are X, Y, R, G, B, lowered in this order, is the model's choice (assumption log 31, DESIGN CHOICE). -/
def setPixelCall (L : Layout) (sc : Scratch) (x y r g b : Expr) : List Instr :=
  pixelArgument L sc .x x ++ pixelArgument L sc .y y ++ pixelArgument L sc .r r ++ pixelArgument L sc .g g
    ++ pixelArgument L sc .b b ++ [.drawPixel 0]

/-- A clear-screen call (30_encoding.md R76). -/
def clearScreenCall : List Instr := [.clearScreen 0]

/-- A set-pixel call with five literal arguments (30_encoding.md R76; positions and order by assumption log 31). -/
def setPixelIdiom (x y r g b : Byte) : List Instr :=
  [.setX x, .setY y, .setR r, .setG g, .setB b, .drawPixel 0]

/-- A set-pixel call with five variables as arguments, by their cells: each is loaded and then set from ACC
(30_encoding.md R76; positions and order by assumption log 31). -/
def setPixelFromCellsIdiom (x y r g b : Byte) : List Instr :=
  [.load x, .setXFromAcc 0, .load y, .setYFromAcc 0, .load r, .setRFromAcc 0, .load g, .setGFromAcc 0, .load b,
   .setBFromAcc 0, .drawPixel 0]

/-- The literals an argument needs in the pool: none where it is an immediate. -/
def Expr.argumentLiterals : Expr → List Byte
  | .literal _ => []
  | .named _ => []
  | .sum l r => l.literals ++ r.literals
  | .difference l r => l.literals ++ r.literals

/-! ## Whole programs -/

/-- The right-hand side of a condition: a literal, else a known variable (30_encoding.md R73). -/
inductive ConditionRight where
  | literal (v : Byte)
  | named (x : Token)
  deriving DecidableEq, Repr

/-- A condition: an expression brought to ACC and a relation to its right-hand side (30_encoding.md R73, R74). -/
structure Condition where
  left : Expr
  rel : Relation
  right : ConditionRight
  deriving DecidableEq, Repr

/-- The right-hand side in the form its idiom takes. -/
def ConditionRight.place (L : Layout) : ConditionRight → RightSide
  | .literal v => .literal v
  | .named x => .cell (L.variableByte x)

/-- The variable a right-hand side uses; its literal is an immediate and takes no cell. -/
def ConditionRight.names : ConditionRight → List Token
  | .literal _ => []
  | .named x => [x]

/-- A condition's code, which leaves 0 or 1 in ACC (30_encoding.md R73, R74). -/
def Condition.lower (L : Layout) (sc : Scratch) (c : Condition) : List Instr :=
  c.left.lower L sc ++ relationIdiom c.rel (c.right.place L)

/-- What the idioms apply to. `assign` is the form of 95_test_vectors.md P6 and P7 (lower the expression, `STORE` it to the
variable); `given` is code of any other origin, such as the read-key and print-log calls, whose sequences are not in the
source, or a final `HLT`, which the source does not say is appended (91_not_in_source.md N9). -/
inductive Stmt where
  | given (code : List Instr)
  | assign (x : Token) (e : Expr)
  | setPixel (x y r g b : Expr)
  | clearScreen
  | seq (first second : Stmt)
  | ifThen (c : Condition) (body : Stmt)
  | whileDo (c : Condition) (body : Stmt)
  deriving DecidableEq, Repr

/-- The literals a program needs in the constant pool, in the order of their lowering (30_encoding.md R75). -/
def Stmt.literals : Stmt → List Byte
  | .given _ => []
  | .assign _ e => e.literals
  | .setPixel x y r g b =>
    x.argumentLiterals ++ y.argumentLiterals ++ r.argumentLiterals ++ g.argumentLiterals ++ b.argumentLiterals
  | .clearScreen => []
  | .seq first second => first.literals ++ second.literals
  | .ifThen c body => c.left.literals ++ body.literals
  | .whileDo c body => c.left.literals ++ body.literals

/-- The variables a program uses, in the order of their lowering (assumption log 30). -/
def Stmt.names : Stmt → List Token
  | .given _ => []
  | .assign x e => e.names ++ [x]
  | .setPixel x y r g b => x.names ++ y.names ++ r.names ++ g.names ++ b.names
  | .clearScreen => []
  | .seq first second => first.names ++ second.names
  | .ifThen c body => c.left.names ++ c.right.names ++ body.names
  | .whileDo c body => c.left.names ++ c.right.names ++ body.names

/-- The allocation of a program's constants and variables (70_reset_and_hazards.md R255; assumption log 30). -/
def Layout.ofProgram (p : Stmt) : Layout where
  constants := firstUses p.literals
  names := firstUses p.names

/-- The code of a statement at byte offset `base`; none where a label cannot be expressed (30_encoding.md R74). -/
def Stmt.emit (L : Layout) (sc : Scratch) (base : Nat) : Stmt → Option (List Instr)
  | .given code => some code
  | .assign x e => some (e.lower L sc ++ [.store (L.variableByte x)])
  | .setPixel x y r g b => some (setPixelCall L sc x y r g b)
  | .clearScreen => some clearScreenCall
  | .seq first second =>
    match first.emit L sc base with
    | some code => (second.emit L sc (base + codeBytes code)).map (fun rest => code ++ rest)
    | none => none
  | .ifThen c body =>
    match body.emit L sc (base + codeBytes (c.lower L sc) + 2) with
    | some code => ifIdiom base (c.lower L sc) code
    | none => none
  | .whileDo c body =>
    match body.emit L sc (base + codeBytes (c.lower L sc) + 2) with
    | some code => whileIdiom base (c.lower L sc) code
    | none => none

/-- A program's code at address 0, under its own allocation (70_reset_and_hazards.md R252, R255). -/
def compiledCode (sc : Scratch) (p : Stmt) : Option (List Instr) := p.emit (Layout.ofProgram p) sc 0

/-- A program's memory image, the constants first; none where program, pool and variables would overlap, which
"must be explicitly checked, not assumed" (70_reset_and_hazards.md R256, 93_implementation_defined.md U22). -/
def compiledImage (m : OpMap) (sc : Scratch) (p : Stmt) : Option (List Host.Cell) :=
  match compiledCode sc p with
  | some code =>
    match encodeAll m code with
    | some bytes =>
      if (Layout.ofProgram p).fits bytes.length then some (buildImage (Layout.ofProgram p).constantCells bytes) else none
    | none => none
  | none => none

end Sys2Proof.Machine
end

