-- ==== Sys2Proof/Safety.lean ====
section
/-! DEFINITION. What counts as a good state and a good end of a run, in the terms the statements use. -/

namespace Sys2Proof.Machine

/-- The invariant every step keeps. -/
structure State.Inv (s : State) : Prop where
  /-- The parameters are legal (00_scope.md R5). -/
  cfg_wf : s.cfg.wf = true
  /-- Memory is in its canonical form. -/
  mem_canonical : Memory.wf s.mem = true
  /-- No listed cell lies outside `[0, N)` (20_memory.md R40). -/
  mem_inside : Memory.below s.mem s.cfg.memSize = true
  /-- The grid is in its canonical form. -/
  grid_canonical : Grid.wf s.fb.grid = true
  /-- No listed cell lies outside the grid (10_state.md R18). -/
  grid_inside : Grid.below s.fb.grid (s.cfg.fbW * s.cfg.fbH) = true
  /-- The engine runs exactly while no cause of a halt is recorded (10_state.md R13, R14). -/
  run_iff_no_cause : s.run = true ↔ s.haltCause = .none
  /-- `PC` never passes the end of memory by more than the end itself (40_engine_cycle.md R91, R94, 41_control.md R120). -/
  pc_inside : s.pc.toNat ≤ s.cfg.memSize

/-- It is the engine's move: nothing is scheduled, or an engine turn comes first (assumption log 13). -/
abbrev State.engineToMove (s : State) : Prop := s.turns.head? = none ∨ s.turns.head? = some .engine

/-- A fault of the program in the sense of 93_implementation_defined.md U2 and U3: it met an unmapped opcode or ran off the
end of memory. The behaviour is defined (the engine halts); a claim that a program runs to its `HLT` excludes it. -/
def State.programFaulted (s : State) : Bool :=
  s.haltCause == .unmappedOpcode || s.haltCause == .endOfMemory

/-- The normal end of a program: halted by `HLT` (60_exceptions.md R221). -/
def State.finished (s : State) : Bool := !s.run && s.haltCause == .hlt

/-- Two states that agree on everything an engine step's course can depend on. They may differ in `OUT`, the whole
framebuffer, its size, the tick and the recorded halt cause, which no instruction reads (10_state.md R14, R17 to R19, R22,
20_memory.md R55, 70_reset_and_hazards.md R270). -/
abbrev SameComputation (s u : State) : Prop :=
  s.cfg.memSize = u.cfg.memSize ∧ s.cfg.opmap = u.cfg.opmap ∧ s.cfg.logAddMode = u.cfg.logAddMode ∧
  s.acc = u.acc ∧ s.pc = u.pc ∧ s.log = u.log ∧ s.run = u.run ∧ s.inq = u.inq ∧ s.mem = u.mem ∧ s.turns = u.turns

/-- What a relation of the source language says of two unsigned numbers (30_encoding.md R73, left column). -/
def relationHolds : Relation → Nat → Nat → Bool
  | .ne, a, k => decide (a ≠ k)
  | .eq, a, k => decide (a = k)
  | .gt, a, k => decide (k < a)
  | .lt, a, k => decide (a < k)
  | .ge, a, k => decide (k ≤ a)
  | .le, a, k => decide (a ≤ k)

/-- The value of a right-hand side. -/
def rightSideValue (s : State) : RightSide → Byte
  | .literal v => v
  | .cell a => s.mem.read a.toNat

/-- A right-hand side that can be read: a literal, or a cell inside memory. -/
def rightSideInMemory (s : State) : RightSide → Prop
  | .literal _ => True
  | .cell a => a.toNat < s.cfg.memSize

/-- The value of an expression of the source language, modulo 256, from the values of its variables (30_encoding.md R75,
41_control.md R119). -/
def Expr.value (env : Token → Byte) : Expr → Byte
  | .literal v => v
  | .named x => env x
  | .sum l r => BitVec.ofNat 8 (((l.value env).toNat + (r.value env).toNat) % 256)
  | .difference l r => BitVec.ofNat 8 (((l.value env).toNat + 256 - (r.value env).toNat) % 256)

/-- A literal or a variable. -/
def Expr.leaf : Expr → Bool
  | .literal _ => true
  | .named _ => true
  | .sum _ _ => false
  | .difference _ _ => false

/-- No right operand is itself an operation, as in `a + b - c`. A right operand that is one runs its own idiom over the same
scratch cells, which hold the waiting left operand (30_encoding.md R75, 70_reset_and_hazards.md R261; assumption log 28). -/
def Expr.rightsAreLeaves : Expr → Bool
  | .literal _ => true
  | .named _ => true
  | .sum l r => l.rightsAreLeaves && r.leaf
  | .difference l r => l.rightsAreLeaves && r.leaf

/-- What compiled code asks of the machine it runs on: scratch cells as the convention has them, the operand range inside
memory, pool and variables apart, and the pool's constants in place (70_reset_and_hazards.md R254, R255, R256). -/
structure Layout.Ready (L : Layout) (sc : Scratch) (s : State) : Prop where
  scratch_wf : sc.wf = true
  operands_inside : 256 ≤ s.cfg.memSize
  apart : L.fits 0 = true
  constants_loaded : ∀ v ∈ L.constants, s.mem.read (L.constantAddress v) = v

/-- The variables' values in a state. -/
def Layout.valueOf (L : Layout) (s : State) (x : Token) : Byte := s.mem.read (L.variableAddress x)

/-- The bytes from an address on decode to a sequence of instructions. -/
def codeAt (m : OpMap) (mem : Memory) : Nat → List Instr → Bool
  | _, [] => true
  | a, i :: rest => decode m (mem.read a) (mem.read (a + 1)) == .instr i && codeAt m mem (a + 2) rest

/-- An instruction that neither jumps nor stops the engine (41_control.md R120, R122). -/
def runsStraight (i : Instr) : Bool :=
  i.mnemonic != .JMP && i.mnemonic != .JZ && i.mnemonic != .JNZ && i.mnemonic != .HLT

/-- The events other than the trace, which is "not part of correctness" (45_logging.md R205). -/
def reports (out : List Event) : List Event :=
  out.filter (fun e =>
    match e with
    | .trace _ _ _ => false
    | .unmappedOpcode _ _ => true
    | .logPrint _ => true)

end Sys2Proof.Machine
end

