-- ==== Sys2Proof/Certificates/Slice0/Obligations.lean ====
section
/-! DEFINITION. The statements for the provers, by the families of spec/opcode_table.json and the kinds of state. An
equation `exec i s = .next { s with … }` is at once the instruction's result, its completion and its frame: every field not
named, every byte of memory included, is as before. `exec` is entered with `PC` already advanced (00_scope.md R8). -/

open Sys2Proof Sys2Proof.Machine

/-! ## Encoding -/

/-- Five words written out from 30_encoding.md R63 and R64 decode to their instructions, and a sixth, whose opcode byte 0x1C
is unmapped (R67), is rejected by name. The opcode bytes are the spec's decision D1 (assumption log 1). -/
def Obligations.WrittenOutWordsDecode : Prop :=
  decode OpMap.standard 0x01 0x10 = .instr (.load 0x10) ∧
  decode OpMap.standard 0x0A 0x1B = .instr (.cmpVal 0x1B) ∧
  decode OpMap.standard 0x1A 0x00 = .instr (.drawPixel 0x00) ∧
  decode OpMap.standard 0x21 0x00 = .instr (.getKey 0x00) ∧
  decode OpMap.standard 0x33 0x7F = .instr (.logPrint 0x7F) ∧
  decode OpMap.standard 0x1C 0x99 = .rejected (.unmappedOpcode 0x1C)

/-- Under every legal opcode map every instruction, with every operand byte, has an encoding, and decoding it gives the
instruction back: "both the assembler and engine reference the same table to guarantee encoding/decoding agreement"
(30_encoding.md R65). -/
def Obligations.DecodingUndoesEncoding : Prop :=
  ∀ (m : OpMap) (i : Instr), m.wf = true →
    ∃ opcode opnd, encode m i = some (opcode, opnd) ∧ decode m opcode opnd = .instr i

/-- Under every legal opcode map, two bytes that decode to an instruction are that instruction's encoding (30_encoding.md
R60, R65, R66: the ignored operand byte is kept). -/
def Obligations.EncodingUndoesDecoding : Prop :=
  ∀ (m : OpMap) (opcode opnd : Byte) (i : Instr), m.wf = true → decode m opcode opnd = .instr i →
    encode m i = some (opcode, opnd)

/-- Whatever legal assignment OPMAP makes inside the ranges, the mapped bytes are exactly the four ranges, and every other
byte is rejected by name (30_encoding.md R62, R67). -/
def Obligations.MappedBytesAreTheFourRanges : Prop :=
  ∀ (m : OpMap) (opcode opnd : Byte), m.wf = true →
    ((∃ i, decode m opcode opnd = .instr i) ↔
      (opcode.toNat ≤ 0x0F ∨ (0x10 ≤ opcode.toNat ∧ opcode.toNat ≤ 0x1B) ∨
        (0x20 ≤ opcode.toNat ∧ opcode.toNat ≤ 0x22) ∨ (0x30 ≤ opcode.toNat ∧ opcode.toNat ≤ 0x33))) ∧
    ((¬ ∃ i, decode m opcode opnd = .instr i) → decode m opcode opnd = .rejected (.unmappedOpcode opcode))

/-- The operand byte takes no part in decoding: it is only carried along (40_engine_cycle.md R95). -/
def Obligations.DecodeDependsOnTheOpcodeByteAlone : Prop :=
  ∀ (m : OpMap) (opcode x y : Byte),
    (∀ why, decode m opcode x = .rejected why → decode m opcode y = .rejected why) ∧
    (∀ i, decode m opcode x = .instr i →
      i.operand = x ∧ ∃ j, decode m opcode y = .instr j ∧ j.mnemonic = i.mnemonic ∧ j.operand = y)

/-! ## Control, load/store and arithmetic -/

/-- `NOP` does nothing, whatever its operand byte (41_control.md R110, 30_encoding.md R66). -/
def Obligations.NopChangesNothing : Prop :=
  ∀ (x : Byte) (s : State), exec (.nop x) s = .next s

/-- `LOAD addr`: ACC takes the cell's byte and nothing else changes (41_control.md R111). -/
def Obligations.LoadPutsItsCellInAcc : Prop :=
  ∀ (a : Byte) (s : State), a.toNat < s.cfg.memSize →
    exec (.load a) s = .next { s with acc := s.mem.read a.toNat }

/-- `STORE addr`: the cell at the zero-extended operand takes ACC, every other cell reads as before, and no other state
changes (41_control.md R112). -/
def Obligations.StorePutsAccInItsCellOnly : Prop :=
  ∀ (a : Byte) (s : State), dataAddress a < s.cfg.memSize →
    dataAddress a = a.toNat ∧
    ∃ m : Memory, exec (.store a) s = .next { s with mem := m } ∧ m.read (dataAddress a) = s.acc ∧
      ∀ b, b ≠ dataAddress a → m.read b = s.mem.read b

/-- `ADD` and `SUB`: "results equal (a+b) mod 256 / (a−b) mod 256", the memory operand the subtrahend, and nothing but ACC
changes (41_control.md R113, R114, R119). -/
def Obligations.AddAndSubWrapModulo256 : Prop :=
  ∀ (a : Byte) (s : State), a.toNat < s.cfg.memSize →
    exec (.add a) s =
      .next { s with acc := BitVec.ofNat 8 ((s.acc.toNat + (s.mem.read a.toNat).toNat) % 256) } ∧
    exec (.sub a) s =
      .next { s with acc := BitVec.ofNat 8 ((s.acc.toNat + 256 - (s.mem.read a.toNat).toNat) % 256) }

/-- `JMP`, `JZ`, `JNZ`: the target is the zero-extended operand; `JZ` jumps on ACC = 0, `JNZ` on ACC ≠ 0, and an untaken
jump leaves the advanced PC (41_control.md R115, R116, R117). -/
def Obligations.JumpsWriteTheZeroExtendedTarget : Prop :=
  ∀ (a : Byte) (s : State),
    exec (.jmp a) s = .next { s with pc := BitVec.ofNat 16 a.toNat } ∧
    (s.acc.toNat = 0 → exec (.jz a) s = .next { s with pc := BitVec.ofNat 16 a.toNat } ∧ exec (.jnz a) s = .next s) ∧
    (s.acc.toNat ≠ 0 → exec (.jz a) s = .next s ∧ exec (.jnz a) s = .next { s with pc := BitVec.ofNat 16 a.toNat })

/-- `HLT`, whatever its operand byte: RUN is cleared with the cause `hlt`, and nothing else changes (41_control.md R118). -/
def Obligations.HltClearsRunWithItsCause : Prop :=
  ∀ (x : Byte) (s : State), exec (.hlt x) s = .next { s with run := false, haltCause := .hlt }

/-- A data operand outside `[0, N)` is the out-of-range condition, for every instruction that accesses memory (20_memory.md
R41, R42, R43). No legal configuration allows it, since N >= 256, and the instructions' own entries name no exception: that
the condition, raised in an instruction, is a fault of the machine is the model's reading (assumption log 22, DEDUCED). -/
def Obligations.AccessOutsideMemoryFaults : Prop :=
  ∀ (a : Byte) (s : State), s.cfg.memSize ≤ a.toNat →
    (∀ i ∈ [Instr.load a, .store a, .add a, .sub a, .cmp a, .gt a, .lt a],
      exec i s = .fault (.memoryOutOfRange a.toNat)) ∧
    (s.cfg.logAddMode = .mem → exec (.logAdd a) s = .fault (.memoryOutOfRange a.toNat))

/-! ## Comparisons -/

/-- `CMP`, `GT`, `LT` against a memory cell: ACC becomes 1 or 0 by an unsigned comparison, `CMP` giving 1 for DIFFERENT
(42_compare.md R131, R133, R135). -/
def Obligations.MemoryComparisonsAreUnsigned : Prop :=
  ∀ (a : Byte) (s : State), a.toNat < s.cfg.memSize →
    exec (.cmp a) s = .next { s with acc := if s.acc.toNat = (s.mem.read a.toNat).toNat then 0 else 1 } ∧
    exec (.gt a) s = .next { s with acc := if (s.mem.read a.toNat).toNat < s.acc.toNat then 1 else 0 } ∧
    exec (.lt a) s = .next { s with acc := if s.acc.toNat < (s.mem.read a.toNat).toNat then 1 else 0 }

/-- `CMP_VAL`, `GT_VAL`, `LT_VAL` against the operand byte itself (42_compare.md R132, R134, R136). -/
def Obligations.ImmediateComparisonsAreUnsigned : Prop :=
  ∀ (v : Byte) (s : State),
    exec (.cmpVal v) s = .next { s with acc := if s.acc.toNat = v.toNat then 0 else 1 } ∧
    exec (.gtVal v) s = .next { s with acc := if v.toNat < s.acc.toNat then 1 else 0 } ∧
    exec (.ltVal v) s = .next { s with acc := if s.acc.toNat < v.toNat then 1 else 0 }

/-- `NOT` is logical negation: 1 exactly when ACC is 0, whatever the operand byte (42_compare.md R137). -/
def Obligations.NotIsLogicalNegation : Prop :=
  ∀ (x : Byte) (s : State), exec (.notAcc x) s = .next { s with acc := if s.acc.toNat = 0 then 1 else 0 }

/-- The compiler's relational idioms leave 1 in ACC exactly when the relation holds between ACC and the right-hand side, for
all six relations and both forms of the right-hand side (30_encoding.md R73). -/
def Obligations.RelationIdiomsComputeTheRelation : Prop :=
  ∀ (rel : Relation) (k : RightSide) (s : State), rightSideInMemory s k →
    execAll (relationIdiom rel k) s =
      .next { s with acc := if relationHolds rel s.acc.toNat (rightSideValue s k).toNat then 1 else 0 }

/-- The compiler's sum: ACC becomes left + right modulo 256, the scratch cell keeps the left operand, every other cell is as
before; the scratch cell must not be the right operand's (30_encoding.md R75; the scratch cell is an argument, assumption
log 28). -/
def Obligations.SumIdiomAddsThroughScratch : Prop :=
  ∀ (l r c : Byte) (s : State), l.toNat < s.cfg.memSize → r.toNat < s.cfg.memSize → c.toNat < s.cfg.memSize → c ≠ r →
    ∃ m : Memory,
      execAll (sumIdiom l r c) s =
        .next { s with
          acc := BitVec.ofNat 8 (((s.mem.read l.toNat).toNat + (s.mem.read r.toNat).toNat) % 256)
          mem := m } ∧
      m.read c.toNat = s.mem.read l.toNat ∧ ∀ b, b ≠ c.toNat → m.read b = s.mem.read b

/-! ## Display -/

/-- The immediate register sets write their one register and nothing else, any byte accepted (43_display.md R156 to R160). -/
def Obligations.SetInstructionsLoadTheOperand : Prop :=
  ∀ (v : Byte) (s : State),
    exec (.setX v) s = .next { s with fb := { s.fb with x := v } } ∧
    exec (.setY v) s = .next { s with fb := { s.fb with y := v } } ∧
    exec (.setR v) s = .next { s with fb := { s.fb with r := v } } ∧
    exec (.setG v) s = .next { s with fb := { s.fb with g := v } } ∧
    exec (.setB v) s = .next { s with fb := { s.fb with b := v } }

/-- The register sets from ACC write their one register and nothing else, the operand byte ignored (43_display.md R161 to
R165). -/
def Obligations.SetFromAccInstructionsLoadAcc : Prop :=
  ∀ (x : Byte) (s : State),
    exec (.setXFromAcc x) s = .next { s with fb := { s.fb with x := s.acc } } ∧
    exec (.setYFromAcc x) s = .next { s with fb := { s.fb with y := s.acc } } ∧
    exec (.setRFromAcc x) s = .next { s with fb := { s.fb with r := s.acc } } ∧
    exec (.setGFromAcc x) s = .next { s with fb := { s.fb with g := s.acc } } ∧
    exec (.setBFromAcc x) s = .next { s with fb := { s.fb with b := s.acc } }

/-- `DRAW_PIXEL`. In bounds the one cell takes (R, G, B), every other pixel is as before, the dirty flag is set and nothing
else changes; with X or Y outside the grid nothing at all happens, not even to the dirty flag (43_display.md R152, R166,
90_conflicts.md C2). -/
def Obligations.DrawPixelWritesOneCellOnlyInBounds : Prop :=
  ∀ (x : Byte) (s : State),
    (s.fb.x.toNat < s.cfg.fbW ∧ s.fb.y.toNat < s.cfg.fbH →
      ∃ g : Grid,
        exec (.drawPixel x) s = .next { s with fb := { s.fb with grid := g, dirty := true } } ∧
        ∀ px py, State.getPixel { s with fb := { s.fb with grid := g, dirty := true } } px py =
          if px = s.fb.x.toNat ∧ py = s.fb.y.toNat then ⟨s.fb.r, s.fb.g, s.fb.b⟩ else s.getPixel px py) ∧
    (s.cfg.fbW ≤ s.fb.x.toNat ∨ s.cfg.fbH ≤ s.fb.y.toNat → exec (.drawPixel x) s = .next s)

/-- `CLEAR_SCREEN`: every pixel is black, the dirty flag is set, the five registers and all other state are as before
(43_display.md R153, R167). -/
def Obligations.ClearScreenBlackensEveryPixel : Prop :=
  ∀ (x : Byte) (s : State), ∃ g : Grid,
    exec (.clearScreen x) s = .next { s with fb := { s.fb with grid := g, dirty := true } } ∧
    ∀ px py, State.getPixel { s with fb := { s.fb with grid := g, dirty := true } } px py = ⟨0, 0, 0⟩

/-- The compiler's set-pixel call with literal arguments draws exactly that pixel when it is in bounds, and touches neither
ACC nor memory (30_encoding.md R76). Which argument goes to which register, and in which order, is the model's choice
(assumption log 31, DESIGN CHOICE). -/
def Obligations.SetPixelIdiomDrawsThePixel : Prop :=
  ∀ (x y r g b : Byte) (s : State), x.toNat < s.cfg.fbW → y.toNat < s.cfg.fbH →
    ∃ t, execAll (setPixelIdiom x y r g b) s = .next t ∧ t.fb.dirty = true ∧ t.acc = s.acc ∧ t.mem = s.mem ∧
      ∀ px py, t.getPixel px py = if px = x.toNat ∧ py = y.toNat then ⟨r, g, b⟩ else s.getPixel px py

/-- The same call with variables as arguments draws the pixel their cells name (30_encoding.md R76; the positions and order of
the arguments are assumption log 31, DESIGN CHOICE). -/
def Obligations.SetPixelFromCellsDrawsThePixel : Prop :=
  ∀ (x y r g b : Byte) (s : State), 256 ≤ s.cfg.memSize →
    (s.mem.read x.toNat).toNat < s.cfg.fbW → (s.mem.read y.toNat).toNat < s.cfg.fbH →
    ∃ t, execAll (setPixelFromCellsIdiom x y r g b) s = .next t ∧ t.fb.dirty = true ∧ t.mem = s.mem ∧
      ∀ px py, t.getPixel px py =
        if px = (s.mem.read x.toNat).toNat ∧ py = (s.mem.read y.toNat).toNat then
          ⟨s.mem.read r.toNat, s.mem.read g.toNat, s.mem.read b.toNat⟩
        else s.getPixel px py

/-! ## What the renderer may see during a step -/

/-- After any number of the single writes `draw_pixel` is made of, every component of every pixel is the old or the new one,
and the dirty flag is still the old one before the last of them; after all of them the device is as `draw_pixel` leaves it
(43_display.md R168; the order of the writes is the spec's decision D15, assumption log 15). -/
def Obligations.DrawPixelIsItsByteWritesInOrder : Prop :=
  ∀ (w h : Nat) (fb : Framebuffer),
    fb.applyWrites w (fb.drawWrites w h) = fb.drawPixel w h ∧
    ∀ (n x y : Nat),
      let seen := fb.applyWrites w ((fb.drawWrites w h).take n)
      tornByte (fb.getPixel w h x y).r ((fb.drawPixel w h).getPixel w h x y).r (seen.getPixel w h x y).r = true ∧
      tornByte (fb.getPixel w h x y).g ((fb.drawPixel w h).getPixel w h x y).g (seen.getPixel w h x y).g = true ∧
      tornByte (fb.getPixel w h x y).b ((fb.drawPixel w h).getPixel w h x y).b (seen.getPixel w h x y).b = true ∧
      (n < (fb.drawWrites w h).length → seen.dirty = fb.dirty)

/-- In whatever order the single bytes of the cells are cleared, once every one has been the device is as `clear` leaves it,
and on the way every component of every pixel is the old one or 0, the dirty flag the old one (43_display.md R168,
93_implementation_defined.md U19; grid before flag is the spec's decision D15, and the order of the byte writes is left
open, assumption log 15). -/
def Obligations.ClearIsItsByteWritesInAnyOrder : Prop :=
  ∀ (w h : Nat) (fb : Framebuffer) (bytes : List (Component × Nat × Nat)),
    (∀ b ∈ bytes, b.2.1 < w ∧ b.2.2 < h) →
    (Grid.below fb.grid (w * h) = true → (∀ c x y, x < w → y < h → (c, x, y) ∈ bytes) →
      fb.applyWrites w (clearWrites bytes) = fb.clear) ∧
    ∀ (n x y : Nat),
      let seen := fb.applyWrites w ((clearWrites bytes).take n)
      tornByte (fb.getPixel w h x y).r 0 (seen.getPixel w h x y).r = true ∧
      tornByte (fb.getPixel w h x y).g 0 (seen.getPixel w h x y).g = true ∧
      tornByte (fb.getPixel w h x y).b 0 (seen.getPixel w h x y).b = true ∧
      (n < (clearWrites bytes).length → seen.dirty = fb.dirty)

/-! ## Input -/

/-- `KEY_AVAILABLE` and `PEEK_KEY` read the queue without changing it: 1 or 0 by its emptiness, and the front or 0
(44_input.md R186, R188). -/
def Obligations.KeyTestsLeaveTheQueue : Prop :=
  ∀ (x : Byte) (s : State),
    exec (.keyAvailable x) s = .next { s with acc := if s.inq = [] then 0 else 1 } ∧
    (s.inq = [] → exec (.peekKey x) s = .next { s with acc := 0 }) ∧
    (∀ c q, s.inq = c :: q → exec (.peekKey x) s = .next { s with acc := c })

/-- `GET_KEY` removes the front and puts it in ACC; on an empty queue ACC becomes 0 and the queue stays empty (44_input.md
R183, R187). -/
def Obligations.GetKeyTakesTheFront : Prop :=
  ∀ (x : Byte) (s : State),
    (s.inq = [] → exec (.getKey x) s = .next { s with acc := 0 }) ∧
    (∀ c q, s.inq = c :: q → exec (.getKey x) s = .next { s with acc := c, inq := q })

/-- Codes come out in the order they went in and none is lost: after any pushes, the n-th `GET_KEY` gives the n-th code of
the old queue followed by the pushed codes (44_input.md R181, R185, 60_exceptions.md R240). -/
def Obligations.KeysComeOutInOrder : Prop :=
  ∀ (s : State) (cs : List Byte) (n : Nat) (c : Byte), (s.inq ++ cs)[n]? = some c →
    ∃ t, execAll (List.replicate (n + 1) (.getKey 0)) (cs.foldl (fun u k => hostMove (.pushCode k) u) s) = .next t ∧
      t.acc = c ∧ t.inq = (s.inq ++ cs).drop (n + 1)

/-- "after a 1 the queue stays non-empty until the program itself executes `GET_KEY`": whatever the host does in between,
`GET_KEY` then returns the code that was at the front (44_input.md R186, R189). -/
def Obligations.AvailableKeyStaysUntilTaken : Prop :=
  ∀ (x y : Byte) (s t : State) (moves : List HostMove), exec (.keyAvailable x) s = .next t → t.acc = 1 →
    ∃ u, exec (.getKey y) (moves.foldl (fun v m => hostMove m v) t) = .next u ∧ s.inq.head? = some u.acc

/-! ## Logging -/

/-- `LOG_ADD` adds modulo 256 to LOG and changes nothing else: the operand byte, or the cell it names when the parameter
`LOG_ADD_MODE` says so (45_logging.md R201; the default mode is the spec's decision D12, assumption log 10). -/
def Obligations.LogAddWrapsInBothModes : Prop :=
  ∀ (v : Byte) (s : State),
    (s.cfg.logAddMode = .imm →
      exec (.logAdd v) s = .next { s with log := BitVec.ofNat 8 ((s.log.toNat + v.toNat) % 256) }) ∧
    (s.cfg.logAddMode = .mem → v.toNat < s.cfg.memSize →
      exec (.logAdd v) s =
        .next { s with log := BitVec.ofNat 8 ((s.log.toNat + (s.mem.read v.toNat).toNat) % 256) })

/-- `LOG_LOAD`: ACC takes LOG; `LOG_STORE`: LOG takes ACC; `LOG_PRINT`: one event with the value of LOG; nothing else
changes (45_logging.md R202, R203, R204). -/
def Obligations.LogMovesAndPrints : Prop :=
  ∀ (x : Byte) (s : State),
    exec (.logLoad x) s = .next { s with acc := s.log } ∧
    exec (.logStore x) s = .next { s with log := s.acc } ∧
    exec (.logPrint x) s = .next { s with out := s.out ++ [.logPrint s.log] }

/-! ## Rules over all instructions -/

/-- `STORE` is the only instruction that writes memory, `LOG_PRINT` the only one that reports (10_state.md R21, R22,
20_memory.md R46, 41_control.md R121), and none writes the parameters, which are fixed for the life of the instance
(00_scope.md R5), or the schedule, which is the host's (10_state.md R24). That both stand in fields of State is the model's
choice (assumption log 20, log 13, DESIGN CHOICE). -/
def Obligations.OnlyStoreWritesMemoryOnlyLogPrintReports : Prop :=
  ∀ (i : Instr) (s t : State), exec i s = .next t →
    t.cfg = s.cfg ∧ t.turns = s.turns ∧
    (i.mnemonic ≠ .STORE → t.mem = s.mem ∧ ∀ a, t.mem.read a = s.mem.read a) ∧
    (i.mnemonic ≠ .LOG_PRINT → t.out = s.out)

/-- ACC and LOG are written only by the instructions 10_state.md R10 and R12 list. -/
def Obligations.AccAndLogHaveOnlyTheirWriters : Prop :=
  ∀ (i : Instr) (s t : State), exec i s = .next t →
    (i.mnemonic ∉ [Mnemonic.LOAD, .ADD, .SUB, .CMP, .CMP_VAL, .GT, .GT_VAL, .LT, .LT_VAL, .NOT, .KEY_AVAILABLE,
      .GET_KEY, .PEEK_KEY, .LOG_LOAD] → t.acc = s.acc) ∧
    (i.mnemonic ∉ [Mnemonic.LOG_ADD, .LOG_STORE] → t.log = s.log)

/-- PC is written only by the three jumps, and RUN (with its recorded cause) only by `HLT` (10_state.md R11, R13,
41_control.md R120, R122). -/
def Obligations.PcAndRunHaveOnlyTheirWriters : Prop :=
  ∀ (i : Instr) (s t : State), exec i s = .next t →
    (i.mnemonic ∉ [Mnemonic.JMP, .JZ, .JNZ] → t.pc = s.pc) ∧
    (i.mnemonic ≠ .HLT → t.run = s.run ∧ t.haltCause = s.haltCause)

/-- Each framebuffer register is written by its own two instructions, the grid by `DRAW_PIXEL` and `CLEAR_SCREEN`, the queue
by `GET_KEY`; no instruction clears the dirty flag (10_state.md R17 to R20). -/
def Obligations.DeviceStateHasOnlyItsWriters : Prop :=
  ∀ (i : Instr) (s t : State), exec i s = .next t →
    (i.mnemonic ∉ [Mnemonic.SET_X, .SET_X_FROM_ACC] → t.fb.x = s.fb.x) ∧
    (i.mnemonic ∉ [Mnemonic.SET_Y, .SET_Y_FROM_ACC] → t.fb.y = s.fb.y) ∧
    (i.mnemonic ∉ [Mnemonic.SET_R, .SET_R_FROM_ACC] → t.fb.r = s.fb.r) ∧
    (i.mnemonic ∉ [Mnemonic.SET_G, .SET_G_FROM_ACC] → t.fb.g = s.fb.g) ∧
    (i.mnemonic ∉ [Mnemonic.SET_B, .SET_B_FROM_ACC] → t.fb.b = s.fb.b) ∧
    (i.mnemonic ∉ [Mnemonic.DRAW_PIXEL, .CLEAR_SCREEN] → t.fb.grid = s.fb.grid ∧ t.fb.dirty = s.fb.dirty) ∧
    (s.fb.dirty = true → t.fb.dirty = true) ∧
    (i.mnemonic ≠ .GET_KEY → t.inq = s.inq)

/-! ## The engine step -/

/-- A step in which the engine runs and is to move executes the instruction its two bytes decode to, with PC advanced by 2
modulo 65536 and the trace emitted (40_engine_cycle.md R92 to R97). Whose move it is, and that the schedule loses the
engine's turn, is the model's form of the host's schedule (assumption log 13, DESIGN CHOICE). -/
def Obligations.StepRunsTheDecodedInstruction : Prop :=
  ∀ (s : State) (i : Instr), s.engineToMove → s.run = true → s.pc.toNat + 1 < s.cfg.memSize →
    decode s.cfg.opmap (s.mem.read s.pc.toNat) (s.mem.read (s.pc.toNat + 1)) = .instr i →
    step s =
      exec i { s with
        pc := BitVec.ofNat 16 ((s.pc.toNat + 2) % 65536)
        out := s.out ++ [.trace s.pc (s.mem.read s.pc.toNat) (s.mem.read (s.pc.toNat + 1))]
        turns := s.turns.tail }

/-- An unmapped opcode byte: the report carries the opcode byte's address and value, RUN is cleared with its cause, PC keeps
the advanced value, and nothing else of the machine changes (40_engine_cycle.md R96; address by decision D14, PC derived,
assumption log 11). The turn taken from the schedule is the model's (assumption log 13, DESIGN CHOICE). -/
def Obligations.UnmappedOpcodeReportsAndHalts : Prop :=
  ∀ (s : State) (why : Reject), s.engineToMove → s.run = true → s.pc.toNat + 1 < s.cfg.memSize →
    decode s.cfg.opmap (s.mem.read s.pc.toNat) (s.mem.read (s.pc.toNat + 1)) = .rejected why →
    step s =
      .next { s with
        pc := BitVec.ofNat 16 ((s.pc.toNat + 2) % 65536)
        out := s.out ++ [.unmappedOpcode s.pc (s.mem.read s.pc.toNat)]
        run := false
        haltCause := .unmappedOpcode
        turns := s.turns.tail }

/-- `PC + 1 >= N`, without wrap-around: RUN is cleared with its cause and nothing else of the machine changes, no report
(40_engine_cycle.md R91, the spec's decision D8, assumption log 7). The turn taken from the schedule is the model's
(assumption log 13, DESIGN CHOICE). -/
def Obligations.EndOfMemoryHaltsQuietly : Prop :=
  ∀ (s : State), s.engineToMove → s.run = true → s.cfg.memSize ≤ s.pc.toNat + 1 →
    step s = .next { s with run := false, haltCause := .endOfMemory, turns := s.turns.tail }

/-- A store is seen by the next fetch, as opcode byte and as operand byte, with nothing in between (20_memory.md R42, R53). -/
def Obligations.StoreIsSeenByTheNextFetch : Prop :=
  ∀ (a : Byte) (s t : State), exec (.store a) s = .next t → t.pc.toNat + 1 < t.cfg.memSize →
    fetch t =
      .ok (if t.pc.toNat = a.toNat then s.acc else s.mem.read t.pc.toNat,
        if t.pc.toNat + 1 = a.toNat then s.acc else s.mem.read (t.pc.toNat + 1))

/-- The engine stops in no way but the four of 40_engine_cycle.md R98: whenever a step clears RUN, it was the host's stop,
the end of memory, an unmapped opcode or a decoded `HLT`, and the recorded cause (assumption log 12) says which. That each of
the four does clear RUN is HltClearsRunWithItsCause, UnmappedOpcodeReportsAndHalts, EndOfMemoryHaltsQuietly and
HostMovesDoOnlyTheirOwn. The head of the schedule tells a host move from the engine's (assumption log 13, DESIGN CHOICE). -/
def Obligations.EngineStopsInOnlyFourWays : Prop :=
  ∀ (s t : State), s.run = true → step s = .next t → t.run = false →
    (s.turns.head? = some (.host .stop) ∧ t.haltCause = .hostStop) ∨
    (s.engineToMove ∧ s.cfg.memSize ≤ s.pc.toNat + 1 ∧ t.haltCause = .endOfMemory) ∨
    (s.engineToMove ∧ s.pc.toNat + 1 < s.cfg.memSize ∧ t.haltCause = .unmappedOpcode ∧
      ∃ why, decode s.cfg.opmap (s.mem.read s.pc.toNat) (s.mem.read (s.pc.toNat + 1)) = .rejected why) ∨
    (s.engineToMove ∧ s.pc.toNat + 1 < s.cfg.memSize ∧ t.haltCause = .hlt ∧
      ∃ x, decode s.cfg.opmap (s.mem.read s.pc.toNat) (s.mem.read (s.pc.toNat + 1)) = .instr (.hlt x))

/-- Halted is "terminal, no resume": from a halted state any number of steps completes, RUN stays false, the cause stands,
and of all the machine's state only the queue (by pushes, at its back) and the dirty flag can still change (40_engine_cycle.md
R91, R99, R100, 44_input.md R181). That a halted engine's move answers the same state, so that runs complete, is the model's
reading (assumption log 23, DEDUCED); the schedule that shrinks is the model's own (assumption log 13, DESIGN CHOICE). -/
def Obligations.HaltedIsTerminal : Prop :=
  ∀ (k : Nat) (s : State), s.run = false →
    ∃ (q : List Byte) (d : Bool) (ts : List Turn),
      Sys2Proof.core.run k s =
        .next { s with inq := s.inq ++ q, fb := { s.fb with dirty := d }, turns := ts }

/-- A machine with at least 256 cells never faults and refuses nothing, since no engine step can name a cell outside memory
(20_memory.md R43). That every run of any length completes, a halted machine's included, rests on the model's reading of all
stops as next states (assumption log 23, DEDUCED). -/
def Obligations.LegalMachineNeverStopsAbnormally : Prop :=
  ∀ (k : Nat) (s : State), 256 ≤ s.cfg.memSize → ∃ t, Sys2Proof.core.run k s = .next t

/-- OUT is append-only, and no step changes the parameters, which are "fixed for the life of one machine instance"
(10_state.md R22, 00_scope.md R5). -/
def Obligations.StepsAppendToOutAndKeepParameters : Prop :=
  ∀ (s t : State), step s = .next t → t.cfg = s.cfg ∧ ∃ es, t.out = s.out ++ es ∧ es.length ≤ 2

/-- What no instruction reads has no influence: two states that agree on memory size, opcode map, LOG_ADD mode, ACC, PC, LOG,
RUN, the queue, memory and the schedule step to states that agree on them again, whatever OUT, the framebuffer, its size, the
tick and the recorded cause are (10_state.md R14, R17, R18, R19, R22, 20_memory.md R55). -/
def Obligations.ComputationIgnoresWhatNoInstructionReads : Prop :=
  ∀ (s u s' : State), SameComputation s u → step s = .next s' → ∃ u', step u = .next u' ∧ SameComputation s' u'

/-! ## The host -/

/-- The host's moves: a pushed code goes to the back of the queue, a named key by its table code, an unmapped symbol is
dropped, the dirty flag is reset, and a stop clears RUN with its cause unless the engine had halted already; each changes
nothing else (44_input.md R181, 43_display.md R155, 40_engine_cycle.md R100). -/
def Obligations.HostMovesDoOnlyTheirOwn : Prop :=
  ∀ (s : State) (rest : List Turn),
    (∀ c, s.turns = .host (.pushCode c) :: rest → step s = .next { s with inq := s.inq ++ [c], turns := rest }) ∧
    (∀ k, s.turns = .host (.pushKey (.named k)) :: rest →
      step s = .next { s with inq := s.inq ++ [keyCode k], turns := rest }) ∧
    (∀ n, s.turns = .host (.pushKey (.other n)) :: rest → step s = .next { s with turns := rest }) ∧
    (s.turns = .host .resetDirty :: rest →
      step s = .next { s with fb := { s.fb with dirty := false }, turns := rest }) ∧
    (s.turns = .host .stop :: rest → s.run = true →
      step s = .next { s with run := false, haltCause := .hostStop, turns := rest }) ∧
    (s.turns = .host .stop :: rest → s.run = false → step s = .next { s with turns := rest })

/-- The loader: an image inside `[0, N)` is in memory afterwards, a later entry over an earlier one and all other cells as
before, and nothing else changes; an image with an address outside is refused (60_exceptions.md R224, R236). -/
def Obligations.LoaderWritesTheImageOrRefuses : Prop :=
  ∀ (image : List Host.Cell) (s : State),
    ((∀ c ∈ image, c.1 < s.cfg.memSize) →
      ∃ m : Memory, load image s = .next { s with mem := m } ∧
        ∀ a, m.read a = ((image.reverse.find? (fun c => c.1 == a)).map (fun c => c.2)).getD (s.mem.read a)) ∧
    ((∃ c ∈ image, s.cfg.memSize ≤ c.1) →
      ∃ a, load image s = .refused (.loadOutOfRange a) ∧ s.cfg.memSize ≤ a)

/-! ## The assembler -/

/-- The assembler "Emits exactly 2 bytes per pair in input order": pair k becomes the opcode byte at 2k and the operand byte
at 2k+1 (30_encoding.md R69, R72). -/
def Obligations.AssemblerEmitsTwoBytesPerPair : Prop :=
  ∀ (m : OpMap) (pairs : List (Token × Token)) (bytes : List Byte), assemble m pairs = .ok bytes →
    bytes.length = 2 * pairs.length ∧
    ∀ (k : Nat) (mnemonic literal : Token), pairs[k]? = some (mnemonic, literal) →
      ∃ name opcode, mnemonicOfToken mnemonic = some name ∧ m.byteOf name = some opcode ∧
        bytes[2 * k]? = some opcode ∧ bytes[2 * k + 1]? = some (operandLiteral literal)

/-- The assembler produces bytes exactly when every mnemonic token is spelled as one of the 35; one unknown token aborts the
whole assembly (30_encoding.md R70). -/
def Obligations.AssemblerAcceptsExactlyTheMnemonics : Prop :=
  ∀ (m : OpMap) (pairs : List (Token × Token)), m.wf = true →
    ((∃ bytes, assemble m pairs = .ok bytes) ↔ ∀ p ∈ pairs, ∃ name : Mnemonic, p.1 = mnemonicName name)

/-- Disassembling what the assembler emits gives the mnemonics and operand bytes that went in (30_encoding.md R72, R77). -/
def Obligations.DisassemblyReturnsTheMnemonics : Prop :=
  ∀ (m : OpMap) (pairs : List (Mnemonic × Token)), m.wf = true →
    ∃ bytes, assemble m (pairs.map (fun p => (mnemonicName p.1, p.2))) = .ok bytes ∧
      disassemble m bytes = pairs.map (fun p => (some p.1, operandLiteral p.2))

/-! ## Reset and the invariant -/

/-- The state after reset is the table of 10_state.md R25: RUN is true by the source; the other values are the spec's
decisions D4 to D7, D17 and D20 (assumption log 2, 3, 4, 5, 12, 17). -/
def Obligations.ResetStateIsTheTable : Prop :=
  State.reset.run = true ∧ State.reset.acc = 0 ∧ State.reset.pc = 0 ∧ State.reset.log = 0 ∧
  State.reset.haltCause = .none ∧ State.reset.fb.x = 0 ∧ State.reset.fb.y = 0 ∧ State.reset.fb.r = 0 ∧
  State.reset.fb.g = 0 ∧ State.reset.fb.b = 0 ∧ (∀ x y, State.reset.getPixel x y = ⟨0, 0, 0⟩) ∧
  State.reset.fb.dirty = false ∧ State.reset.inq = [] ∧ (∀ a, State.reset.mem.read a = 0) ∧ State.reset.out = []

/-- The invariant holds after reset (10_state.md R25). Its canonical forms of memory and grid are the model's (assumption log
5, log 16, DESIGN CHOICE). -/
def Obligations.ResetSatisfiesTheInvariant : Prop := State.reset.Inv

/-- Every machine the host can construct and load satisfies the invariant (60_exceptions.md R240, first row). Its canonical
forms of memory and grid are the model's (assumption log 5, log 16, DESIGN CHOICE). -/
def Obligations.ConstructedMachineSatisfiesTheInvariant : Prop :=
  ∀ (cfg : Config) (image : List Host.Cell) (s : State), construct cfg image = .next s → s.Inv

/-- Every step keeps the invariant: legal parameters, memory inside `[0, N)`, grid inside its size, RUN true exactly while no
cause is recorded, and PC at most N (00_scope.md R5, 10_state.md R11, R14, R18, 20_memory.md R40); and the canonical forms of
the lists that hold memory and grid, which are the model's (assumption log 5, log 16, DESIGN CHOICE). -/
def Obligations.EveryStepKeepsTheInvariant : Prop :=
  ∀ (s t : State), s.Inv → step s = .next t → t.Inv

/-! ## The compiler's idioms -/

/-- The sum and difference idioms over operands of any code: the left operand's value waits in its scratch cell while the
right operand's code runs; then ACC is that cell plus, or that cell minus, the right operand's value, modulo 256, and a
difference leaves the right operand's value in its own cell (30_encoding.md R75). The scratch cells are arguments, and the
sequence of the difference is the model's (assumption log 28, DESIGN CHOICE). -/
def Obligations.SumAndDifferenceCombineTheirOperands : Prop :=
  ∀ (left right : List Instr) (c d : Byte) (s t u : State),
    c.toNat < s.cfg.memSize → d.toNat < s.cfg.memSize → c ≠ d →
    execAll left s = .next t → execAll right { t with mem := t.mem.write c.toNat t.acc } = .next u →
    execAll (sumCode left right c) s =
      .next { u with acc := BitVec.ofNat 8 ((u.acc.toNat + (u.mem.read c.toNat).toNat) % 256) } ∧
    execAll (differenceCode left right c d) s =
      .next { u with
        acc := BitVec.ofNat 8 (((u.mem.read c.toNat).toNat + 256 - u.acc.toNat) % 256)
        mem := u.mem.write d.toNat u.acc }

/-- The lowering of an expression whose right operands are literals or variables leaves the expression's value, modulo 256,
in ACC, whatever the assignment of the scratch cells, and changes nothing else but the cells 254 and 255 (30_encoding.md R75,
70_reset_and_hazards.md R255, R261). Where a right operand is itself an operation, SumAndDifferenceCombineTheirOperands says
what comes out (assumption log 28, DESIGN CHOICE for the difference). -/
def Obligations.ExpressionIdiomComputesItsValue : Prop :=
  ∀ (L : Layout) (sc : Scratch) (e : Expr) (s : State), L.Ready sc s → e.rightsAreLeaves = true →
    (∀ v ∈ e.literals, v ∈ L.constants) → (∀ x ∈ e.names, x ∈ L.names) →
    ∃ m : Memory, execAll (e.lower L sc) s = .next { s with acc := e.value (L.valueOf s), mem := m } ∧
      ∀ a, a ≠ 254 → a ≠ 255 → m.read a = s.mem.read a

/-- A set-pixel call, each argument a literal, a variable or an expression whose right operands are literals or variables,
draws the pixel its arguments' values name when they lie in the grid and draws nothing otherwise (30_encoding.md R76,
43_display.md R152); of memory only the scratch cells 254 and 255 can change (30_encoding.md R75, 70_reset_and_hazards.md
R261). The scratch cells' assignment is an argument and the sequence of a difference is the model's (assumption log 28, DESIGN
CHOICE), as are the positions and the order of the five arguments (assumption log 31, DESIGN CHOICE). -/
def Obligations.SetPixelCallDrawsItsArguments : Prop :=
  ∀ (L : Layout) (sc : Scratch) (x y r g b : Expr) (s : State), L.Ready sc s →
    (∀ e ∈ [x, y, r, g, b], e.rightsAreLeaves = true ∧ (∀ v ∈ e.argumentLiterals, v ∈ L.constants) ∧
      ∀ n ∈ e.names, n ∈ L.names) →
    ∃ t, execAll (setPixelCall L sc x y r g b) s = .next t ∧
      (∀ a, a ≠ 254 → a ≠ 255 → t.mem.read a = s.mem.read a) ∧
      (let px := (x.value (L.valueOf s)).toNat
       let py := (y.value (L.valueOf s)).toNat
       (px < s.cfg.fbW ∧ py < s.cfg.fbH → t.fb.dirty = true ∧
         ∀ qx qy, t.getPixel qx qy =
           if qx = px ∧ qy = py then ⟨r.value (L.valueOf s), g.value (L.valueOf s), b.value (L.valueOf s)⟩
           else s.getPixel qx qy) ∧
       (s.cfg.fbW ≤ px ∨ s.cfg.fbH ≤ py → t.fb.dirty = s.fb.dirty ∧ ∀ qx qy, t.getPixel qx qy = s.getPixel qx qy))

/-- `if` and `while` in memory at byte offset `base`, the condition's 0 or 1 in ACC: the step at the jump goes on with the
body when ACC is not 0 and right behind the whole idiom when it is 0, and the step behind a `while`'s body goes back to its
start; nothing but PC, the trace and the schedule changes. A label beyond 255 makes no code (30_encoding.md R74, where the
opcode `JZ` is derived; 70_reset_and_hazards.md R262; the turn taken from the schedule is assumption log 13, DESIGN CHOICE). -/
def Obligations.ControlIdiomsJumpByTheCondition : Prop :=
  ∀ (base : Nat) (cond body : List Instr) (s : State),
    s.engineToMove → s.run = true → 256 ≤ s.cfg.memSize →
    (let go := fun (target : Nat) =>
      Host.Outcome.next (φ := Fault) (ρ := Refusal)
        { s with
          pc := BitVec.ofNat 16 target
          out := s.out ++ [.trace s.pc (s.mem.read s.pc.toNat) (s.mem.read (s.pc.toNat + 1))]
          turns := s.turns.tail }
    (∀ code, ifIdiom base cond body = some code → codeAt s.cfg.opmap s.mem base code = true →
      s.pc.toNat = base + codeBytes cond →
      step s = go (if s.acc.toNat = 0 then base + codeBytes code else base + codeBytes cond + 2)) ∧
    (∀ code, whileIdiom base cond body = some code → codeAt s.cfg.opmap s.mem base code = true →
      (s.pc.toNat = base + codeBytes cond →
        step s = go (if s.acc.toNat = 0 then base + codeBytes code else base + codeBytes cond + 2)) ∧
      (s.pc.toNat = base + codeBytes cond + 2 + codeBytes body → step s = go base)) ∧
    (ifIdiom base cond body = none ↔ 255 < base + codeBytes cond + 2 + codeBytes body) ∧
    (whileIdiom base cond body = none ↔ 255 < base + codeBytes cond + 2 + codeBytes body + 2))

/-- Code without jumps and stops that stands at PC and stores nothing into itself runs, one engine step an instruction, to
what its instructions give one after the other: the same state, with PC behind the code and the same reports (40_engine_cycle.md
R92, R94, R97). With nothing scheduled every move is the engine's (assumption log 13, DESIGN CHOICE). -/
def Obligations.StraightLineCodeRunsAsItsInstructions : Prop :=
  ∀ (code : List Instr) (s t : State), s.turns = [] → s.run = true → s.cfg.memSize ≤ 65536 →
    s.pc.toNat + codeBytes code ≤ s.cfg.memSize → codeAt s.cfg.opmap s.mem s.pc.toNat code = true →
    (∀ i ∈ code, runsStraight i = true) →
    (∀ a, .store a ∈ code → a.toNat < s.pc.toNat ∨ s.pc.toNat + codeBytes code ≤ a.toNat) →
    execAll code s = .next t →
    ∃ events, Sys2Proof.core.run code.length s =
        .next { t with pc := BitVec.ofNat 16 (s.pc.toNat + codeBytes code), out := events } ∧
      reports events = reports t.out

/-- A compiled program's image, loaded before the run: the program's code stands from address 0 on, every literal it needs
has exactly one pool cell, in 100 to 199, which holds it, and its variables have one cell each, in 200 to 253
(70_reset_and_hazards.md R252, R255, R256, 60_exceptions.md R236). The order of the cells is the model's (assumption log 30,
DESIGN CHOICE). -/
def Obligations.CompiledImageHoldsCodeAndConstants : Prop :=
  ∀ (m : OpMap) (sc : Scratch) (p : Stmt) (image : List Host.Cell) (s : State), m.wf = true → 256 ≤ s.cfg.memSize →
    compiledImage m sc p = some image →
    ∃ (code : List Instr) (mem : Memory), compiledCode sc p = some code ∧ load image s = .next { s with mem := mem } ∧
      codeAt m mem 0 code = true ∧ codeBytes code ≤ 100 ∧
      (let L := Layout.ofProgram p
       (∀ v ∈ p.literals, 100 ≤ L.constantAddress v ∧ L.constantAddress v < 200 ∧ mem.read (L.constantAddress v) = v) ∧
       (∀ x ∈ p.names, 200 ≤ L.variableAddress x ∧ L.variableAddress x < 254) ∧
       (∀ x ∈ p.names, ∀ y ∈ p.names, L.variableAddress x = L.variableAddress y → x = y) ∧
       L.constants.Nodup ∧ ∀ v, v ∈ L.constants → v ∈ p.literals)
end

