-- ==== Sys2Proof/Laws/PerInstr.lean ====
section
/-! SUPPORT. Per-instruction facts about the syntax: an instruction is what its mnemonic and operand byte make. -/

namespace Sys2Proof.Laws.MakeOfParts

/-- Making an instruction from its own mnemonic and operand gives it back. -/
def Statement (i : Instr) : Prop := Instr.make i.mnemonic i.operand = i

theorem nop (b : Byte) : Statement (.nop b) := rfl
theorem load (b : Byte) : Statement (.load b) := rfl
theorem store (b : Byte) : Statement (.store b) := rfl
theorem add (b : Byte) : Statement (.add b) := rfl
theorem sub (b : Byte) : Statement (.sub b) := rfl
theorem jmp (b : Byte) : Statement (.jmp b) := rfl
theorem jz (b : Byte) : Statement (.jz b) := rfl
theorem jnz (b : Byte) : Statement (.jnz b) := rfl
theorem hlt (b : Byte) : Statement (.hlt b) := rfl
theorem cmp (b : Byte) : Statement (.cmp b) := rfl
theorem cmpVal (b : Byte) : Statement (.cmpVal b) := rfl
theorem gt (b : Byte) : Statement (.gt b) := rfl
theorem gtVal (b : Byte) : Statement (.gtVal b) := rfl
theorem lt (b : Byte) : Statement (.lt b) := rfl
theorem ltVal (b : Byte) : Statement (.ltVal b) := rfl
theorem notAcc (b : Byte) : Statement (.notAcc b) := rfl
theorem setX (b : Byte) : Statement (.setX b) := rfl
theorem setY (b : Byte) : Statement (.setY b) := rfl
theorem setR (b : Byte) : Statement (.setR b) := rfl
theorem setG (b : Byte) : Statement (.setG b) := rfl
theorem setB (b : Byte) : Statement (.setB b) := rfl
theorem setXFromAcc (b : Byte) : Statement (.setXFromAcc b) := rfl
theorem setYFromAcc (b : Byte) : Statement (.setYFromAcc b) := rfl
theorem setRFromAcc (b : Byte) : Statement (.setRFromAcc b) := rfl
theorem setGFromAcc (b : Byte) : Statement (.setGFromAcc b) := rfl
theorem setBFromAcc (b : Byte) : Statement (.setBFromAcc b) := rfl
theorem drawPixel (b : Byte) : Statement (.drawPixel b) := rfl
theorem clearScreen (b : Byte) : Statement (.clearScreen b) := rfl
theorem keyAvailable (b : Byte) : Statement (.keyAvailable b) := rfl
theorem getKey (b : Byte) : Statement (.getKey b) := rfl
theorem peekKey (b : Byte) : Statement (.peekKey b) := rfl
theorem logAdd (b : Byte) : Statement (.logAdd b) := rfl
theorem logLoad (b : Byte) : Statement (.logLoad b) := rfl
theorem logStore (b : Byte) : Statement (.logStore b) := rfl
theorem logPrint (b : Byte) : Statement (.logPrint b) := rfl

end Sys2Proof.Laws.MakeOfParts
end

