-- ==== Sys2Proof/Laws/Decode.lean ====
section
/-! SUPPORT. The small facts about mnemonics, operands and opcode maps from which decoding and encoding are understood. -/

namespace Sys2Proof

@[simp] theorem Instr.mnemonic_make (k : Mnemonic) (b : Byte) : (Instr.make k b).mnemonic = k := by
  cases k <;> rfl

@[simp] theorem Instr.operand_make (k : Mnemonic) (b : Byte) : (Instr.make k b).operand = b := by
  cases k <;> rfl

@[simp] theorem Instr.make_parts (i : Instr) : Instr.make i.mnemonic i.operand = i := by
  cases i <;> rfl

theorem Mnemonic.mem_all (k : Mnemonic) : k ∈ Mnemonic.all := by
  cases k <;> decide

theorem OpMap.standard_wf : OpMap.standard.wf = true := by decide

/-- A byte that a map's lookup finds stands in the map beside its mnemonic. -/
theorem OpMap.mem_of_lookup {m : OpMap} {b : Byte} {k : Mnemonic} (h : m.lookup b = some k) : (b, k) ∈ m := by
  obtain ⟨e, he, rfl⟩ := Option.map_eq_some_iff.mp h
  have := List.find?_some he
  simp only [beq_iff_eq] at this
  exact this ▸ List.mem_of_find?_eq_some he

/-- A mnemonic that has a byte stands in the map beside it. -/
theorem OpMap.mem_of_byteOf {m : OpMap} {b : Byte} {k : Mnemonic} (h : m.byteOf k = some b) : (b, k) ∈ m := by
  obtain ⟨e, he, rfl⟩ := Option.map_eq_some_iff.mp h
  have := List.find?_some he
  simp only [beq_iff_eq] at this
  exact this ▸ List.mem_of_find?_eq_some he

/-- The four checks a legal opcode map passes. -/
theorem OpMap.wf_iff (m : OpMap) :
    m.wf = true ↔ (∀ e ∈ m, e.2.group.contains e.1 = true) ∧ (m.map Prod.fst).Nodup ∧ (m.map Prod.snd).Nodup ∧
      ∀ k, ∃ b, (b, k) ∈ m := by
  simp only [OpMap.wf, OpMap.inRange, OpMap.uniqueBytes, OpMap.uniqueMnemonics, OpMap.complete, Bool.and_eq_true,
    List.all_eq_true, decide_eq_true_eq, List.any_eq_true, beq_iff_eq, and_assoc]
  refine and_congr Iff.rfl (and_congr Iff.rfl (and_congr Iff.rfl ⟨fun h k => ?_, fun h k _ => ?_⟩))
  · obtain ⟨e, he, rfl⟩ := h k (Mnemonic.mem_all k)
    exact ⟨e.1, he⟩
  · obtain ⟨b, hb⟩ := h k
    exact ⟨(b, k), hb, rfl⟩

/-- In a legal map a listed byte looks up its own mnemonic: no other pair has the byte. -/
theorem OpMap.lookup_of_mem {m : OpMap} (h : m.wf = true) {b : Byte} {k : Mnemonic} (hm : (b, k) ∈ m) :
    m.lookup b = some k := by
  obtain ⟨-, hb, -, -⟩ := (OpMap.wf_iff m).mp h
  clear h
  unfold OpMap.lookup
  induction m with
  | nil => simp at hm
  | cons e m ih =>
    simp only [List.map_cons, List.nodup_cons] at hb
    rcases List.mem_cons.mp hm with rfl | hm
    · simp
    · have : e.1 ≠ b := fun hc => hb.1 (hc ▸ List.mem_map.mpr ⟨_, hm, rfl⟩)
      simpa [this] using ih hm hb.2

/-- In a legal map a listed mnemonic has its own byte: no other pair has the mnemonic. -/
theorem OpMap.byteOf_of_mem {m : OpMap} (h : m.wf = true) {b : Byte} {k : Mnemonic} (hm : (b, k) ∈ m) :
    m.byteOf k = some b := by
  obtain ⟨-, -, hk, -⟩ := (OpMap.wf_iff m).mp h
  clear h
  unfold OpMap.byteOf
  induction m with
  | nil => simp at hm
  | cons e m ih =>
    simp only [List.map_cons, List.nodup_cons] at hk
    rcases List.mem_cons.mp hm with rfl | hm
    · simp
    · have : e.2 ≠ k := fun hc => hk.1 (hc ▸ List.mem_map.mpr ⟨_, hm, rfl⟩)
      simpa [this] using ih hm hk.2

end Sys2Proof
end

