-- ==== Sys2Proof/Laws/Memory.lean ====
section
/-! SUPPORT. The laws of sparse data, and through them of memory and grid: a read after a write, the canonical form kept by
every operation, and that equal contents are equal data. -/

namespace Sys2Proof.Machine

variable {α : Type}

theorem sparseRead_erase_same (d : α) (m : List (Nat × α)) (k : Nat) : sparseRead d (sparseErase m k) k = d := by
  induction m with
  | nil => rfl
  | cons e m ih =>
    by_cases h : e.1 = k
    · simpa [sparseErase, h] using ih
    · simpa [sparseErase, h, sparseRead] using ih

theorem sparseRead_erase_other (d : α) (m : List (Nat × α)) {k j : Nat} (hj : j ≠ k) :
    sparseRead d (sparseErase m k) j = sparseRead d m j := by
  induction m with
  | nil => rfl
  | cons e m ih =>
    by_cases h : e.1 = k
    · simpa [sparseErase, h, sparseRead, hj.symm] using ih
    · simp only [sparseErase] at ih
      simp [sparseErase, h, sparseRead, ih]

theorem sparseRead_insert_same (d : α) (m : List (Nat × α)) (k : Nat) (v : α)
    (h : ∀ e ∈ m, e.1 ≠ k) : sparseRead d (sparseInsert k v m) k = v := by
  induction m with
  | nil => simp [sparseInsert, sparseRead]
  | cons e m ih =>
    have he : e.1 ≠ k := h e (by simp)
    have hm := ih (fun x hx => h x (by simp [hx]))
    by_cases hk : k < e.1 <;> simp [sparseInsert, hk, sparseRead, he, hm]

theorem sparseRead_insert_other (d : α) (m : List (Nat × α)) {k j : Nat} (v : α) (hj : j ≠ k) :
    sparseRead d (sparseInsert k v m) j = sparseRead d m j := by
  induction m with
  | nil => simp [sparseInsert, sparseRead, hj.symm]
  | cons e m ih =>
    by_cases hk : k < e.1 <;> simp [sparseInsert, hk, sparseRead, hj.symm, ih]

theorem sparseErase_no_key (m : List (Nat × α)) (k : Nat) : ∀ e ∈ sparseErase m k, e.1 ≠ k := by
  intro e he
  simpa [sparseErase] using (List.mem_filter.mp he).2

theorem mem_sparseInsert {m : List (Nat × α)} {k : Nat} {v : α} {e : Nat × α} :
    e ∈ sparseInsert k v m ↔ e = (k, v) ∨ e ∈ m := by
  induction m with
  | nil => simp [sparseInsert]
  | cons f m ih =>
    by_cases hk : k < f.1
    · simp [sparseInsert, hk]
    · simp [sparseInsert, hk, ih]
      tauto

theorem sparseRead_of_mem {d : α} {m : List (Nat × α)} (h : m.Pairwise (fun e f => e.1 < f.1)) {e : Nat × α}
    (he : e ∈ m) : sparseRead d m e.1 = e.2 := by
  induction m with
  | nil => simp at he
  | cons f m ih =>
    obtain ⟨hf, hm⟩ := List.pairwise_cons.mp h
    rcases List.mem_cons.mp he with rfl | he
    · simp [sparseRead]
    · have : f.1 ≠ e.1 := (hf e he).ne
      simp [sparseRead, this, ih hm he]

theorem sparseRead_of_not_mem {d : α} {m : List (Nat × α)} {k : Nat} (h : ∀ e ∈ m, e.1 ≠ k) : sparseRead d m k = d := by
  induction m with
  | nil => rfl
  | cons f m ih => simp [sparseRead, h f (by simp), ih (fun x hx => h x (by simp [hx]))]

section Write

variable [DecidableEq α]

/-- Everything a write does to what is read: the written key gives the value, every other key is as before. -/
theorem sparseRead_write (d : α) (m : List (Nat × α)) (k : Nat) (v : α) (j : Nat) :
    sparseRead d (sparseWrite d m k v) j = if j = k then v else sparseRead d m j := by
  by_cases hj : j = k
  · subst hj
    by_cases hv : v = d
    · simp [sparseWrite, hv, sparseRead_erase_same]
    · simp [sparseWrite, hv, sparseRead_insert_same _ _ _ _ (sparseErase_no_key m j)]
  · by_cases hv : v = d
    · simp [sparseWrite, hv, hj, sparseRead_erase_other d m hj]
    · simp [sparseWrite, hv, hj, sparseRead_insert_other d _ v hj, sparseRead_erase_other d m hj]

theorem sparseWf_iff (d : α) (m : List (Nat × α)) :
    sparseWf d m = true ↔ m.Pairwise (fun e f => e.1 < f.1) ∧ ∀ e ∈ m, e.2 ≠ d := by
  simp [sparseWf]

theorem sparseErase_wf {d : α} {m : List (Nat × α)} (h : sparseWf d m = true) (k : Nat) :
    sparseWf d (sparseErase m k) = true := by
  rw [sparseWf_iff] at h ⊢
  exact ⟨h.1.filter _, fun e he => h.2 e (List.mem_filter.mp he).1⟩

theorem sparseInsert_wf {d : α} {m : List (Nat × α)} (h : sparseWf d m = true) {k : Nat} {v : α} (hv : v ≠ d)
    (hk : ∀ e ∈ m, e.1 ≠ k) : sparseWf d (sparseInsert k v m) = true := by
  rw [sparseWf_iff] at h ⊢
  refine ⟨?_, fun e he => ?_⟩
  · obtain ⟨hp, -⟩ := h
    induction m with
    | nil => simp [sparseInsert]
    | cons e m ih =>
      obtain ⟨he, hm⟩ := List.pairwise_cons.mp hp
      by_cases hlt : k < e.1
      · simp only [sparseInsert, hlt, if_true, List.pairwise_cons]
        refine ⟨fun f hf => ?_, he, hm⟩
        rcases List.mem_cons.mp hf with rfl | hf
        · exact hlt
        · exact hlt.trans (he f hf)
      · have hne : e.1 ≠ k := hk e (by simp)
        simp only [sparseInsert, hlt, if_false, List.pairwise_cons]
        refine ⟨fun f hf => ?_, ih (fun x hx => hk x (by simp [hx])) hm⟩
        rcases mem_sparseInsert.mp hf with rfl | hf
        · show e.1 < k; omega
        · exact he f hf
  · rcases mem_sparseInsert.mp he with rfl | he
    · exact hv
    · exact h.2 e he

/-- A write keeps the canonical form. -/
theorem sparseWrite_wf {d : α} {m : List (Nat × α)} (h : sparseWf d m = true) (k : Nat) (v : α) :
    sparseWf d (sparseWrite d m k v) = true := by
  by_cases hv : v = d
  · simpa [sparseWrite, hv] using sparseErase_wf h k
  · simpa [sparseWrite, hv] using sparseInsert_wf (sparseErase_wf h k) hv (sparseErase_no_key m k)

/-- A write below a bound keeps every key below it. -/
theorem sparseWrite_below {d : α} {m : List (Nat × α)} {n k : Nat} (h : sparseBelow n m = true) (hk : k < n) (v : α) :
    sparseBelow n (sparseWrite d m k v) = true := by
  simp only [sparseBelow, List.all_eq_true, decide_eq_true_eq] at h ⊢
  intro e he
  by_cases hv : v = d
  · simp only [sparseWrite, hv, if_true] at he
    exact h e (List.mem_filter.mp he).1
  · simp only [sparseWrite, hv, if_false] at he
    rcases mem_sparseInsert.mp he with rfl | he
    · exact hk
    · exact h e (List.mem_filter.mp he).1

/-- Equal contents are equal data: two canonical lists that read alike are one list. -/
theorem sparse_ext {d : α} {m n : List (Nat × α)} (hm : sparseWf d m = true) (hn : sparseWf d n = true)
    (h : ∀ k, sparseRead d m k = sparseRead d n k) : m = n := by
  rw [sparseWf_iff] at hm hn
  have sub : ∀ {a b : List (Nat × α)}, a.Pairwise (fun e f => e.1 < f.1) → b.Pairwise (fun e f => e.1 < f.1) →
      (∀ e ∈ a, e.2 ≠ d) → (∀ k, sparseRead d a k = sparseRead d b k) → ∀ e ∈ a, e ∈ b := by
    intro a b ha hb had hab e he
    have hr : sparseRead d b e.1 = e.2 := (hab e.1).symm.trans (sparseRead_of_mem ha he)
    by_contra hne
    by_cases hx : ∃ f ∈ b, f.1 = e.1
    · obtain ⟨f, hf, hfe⟩ := hx
      have h2 : f.2 = e.2 := by rw [← sparseRead_of_mem (d := d) hb hf, hfe, hr]
      exact hne ((Prod.ext hfe h2 : f = e) ▸ hf)
    · exact had e he (hr.symm.trans (sparseRead_of_not_mem (fun f hf hfe => hx ⟨f, hf, hfe⟩)))
  have hmn := sub hm.1 hn.1 hm.2 h
  have hnm := sub hn.1 hm.1 hn.2 (fun k => (h k).symm)
  have nd : ∀ {a : List (Nat × α)}, a.Pairwise (fun e f => e.1 < f.1) → a.Nodup :=
    fun ha => ha.imp (fun hlt heq => absurd (congrArg Prod.fst heq) hlt.ne)
  have hp : m.Perm n := (List.perm_ext_iff_of_nodup (nd hm.1) (nd hn.1)).mpr (fun e => ⟨hmn e, hnm e⟩)
  exact hp.eq_of_pairwise (fun a b _ _ h1 h2 => absurd h1 (Nat.lt_asymm h2)) hm.1 hn.1

end Write

/-- Everything a memory write does to what is read. -/
theorem Memory.read_write (m : Memory) (a : Nat) (v : Byte) (b : Nat) :
    (Memory.write m a v).read b = if b = a then v else m.read b := sparseRead_write unlistedByte m a v b

/-- A memory write keeps the canonical form. -/
theorem Memory.write_wf {m : Memory} (h : Memory.wf m = true) (a : Nat) (v : Byte) : Memory.wf (Memory.write m a v) = true :=
  sparseWrite_wf h a v

/-- A memory write inside the bound stays inside it. -/
theorem Memory.write_below {m : Memory} {n a : Nat} (h : Memory.below m n = true) (ha : a < n) (v : Byte) :
    Memory.below (Memory.write m a v) n = true := sparseWrite_below h ha v

/-- Memories in canonical form that read alike at every address are equal data. -/
theorem Memory.ext_of_read {m n : Memory} (hm : Memory.wf m = true) (hn : Memory.wf n = true)
    (h : ∀ a, Memory.read m a = Memory.read n a) : m = n := sparse_ext hm hn h

theorem State.reset_mem_wf : Memory.wf State.reset.mem = true := rfl

end Sys2Proof.Machine
end

