-- ==== Sys2Proof/Laws/State.lean ====
section
/-! SUPPORT. One lemma per field of State per named update, so that no proof unfolds a record update. -/

namespace Sys2Proof.Machine

variable (s : State)

@[simp] theorem State.setAcc_cfg (v : Byte) : (s.setAcc v).cfg = s.cfg := rfl
@[simp] theorem State.setAcc_acc (v : Byte) : (s.setAcc v).acc = v := rfl
@[simp] theorem State.setAcc_pc (v : Byte) : (s.setAcc v).pc = s.pc := rfl
@[simp] theorem State.setAcc_log (v : Byte) : (s.setAcc v).log = s.log := rfl
@[simp] theorem State.setAcc_run (v : Byte) : (s.setAcc v).run = s.run := rfl
@[simp] theorem State.setAcc_haltCause (v : Byte) : (s.setAcc v).haltCause = s.haltCause := rfl
@[simp] theorem State.setAcc_fb (v : Byte) : (s.setAcc v).fb = s.fb := rfl
@[simp] theorem State.setAcc_inq (v : Byte) : (s.setAcc v).inq = s.inq := rfl
@[simp] theorem State.setAcc_mem (v : Byte) : (s.setAcc v).mem = s.mem := rfl
@[simp] theorem State.setAcc_out (v : Byte) : (s.setAcc v).out = s.out := rfl
@[simp] theorem State.setAcc_turns (v : Byte) : (s.setAcc v).turns = s.turns := rfl

@[simp] theorem State.setPc_cfg (a : Addr) : (s.setPc a).cfg = s.cfg := rfl
@[simp] theorem State.setPc_acc (a : Addr) : (s.setPc a).acc = s.acc := rfl
@[simp] theorem State.setPc_pc (a : Addr) : (s.setPc a).pc = a := rfl
@[simp] theorem State.setPc_log (a : Addr) : (s.setPc a).log = s.log := rfl
@[simp] theorem State.setPc_run (a : Addr) : (s.setPc a).run = s.run := rfl
@[simp] theorem State.setPc_haltCause (a : Addr) : (s.setPc a).haltCause = s.haltCause := rfl
@[simp] theorem State.setPc_fb (a : Addr) : (s.setPc a).fb = s.fb := rfl
@[simp] theorem State.setPc_inq (a : Addr) : (s.setPc a).inq = s.inq := rfl
@[simp] theorem State.setPc_mem (a : Addr) : (s.setPc a).mem = s.mem := rfl
@[simp] theorem State.setPc_out (a : Addr) : (s.setPc a).out = s.out := rfl
@[simp] theorem State.setPc_turns (a : Addr) : (s.setPc a).turns = s.turns := rfl

@[simp] theorem State.setLog_cfg (v : Byte) : (s.setLog v).cfg = s.cfg := rfl
@[simp] theorem State.setLog_acc (v : Byte) : (s.setLog v).acc = s.acc := rfl
@[simp] theorem State.setLog_pc (v : Byte) : (s.setLog v).pc = s.pc := rfl
@[simp] theorem State.setLog_log (v : Byte) : (s.setLog v).log = v := rfl
@[simp] theorem State.setLog_run (v : Byte) : (s.setLog v).run = s.run := rfl
@[simp] theorem State.setLog_haltCause (v : Byte) : (s.setLog v).haltCause = s.haltCause := rfl
@[simp] theorem State.setLog_fb (v : Byte) : (s.setLog v).fb = s.fb := rfl
@[simp] theorem State.setLog_inq (v : Byte) : (s.setLog v).inq = s.inq := rfl
@[simp] theorem State.setLog_mem (v : Byte) : (s.setLog v).mem = s.mem := rfl
@[simp] theorem State.setLog_out (v : Byte) : (s.setLog v).out = s.out := rfl
@[simp] theorem State.setLog_turns (v : Byte) : (s.setLog v).turns = s.turns := rfl

@[simp] theorem State.setFb_cfg (f : Framebuffer) : (s.setFb f).cfg = s.cfg := rfl
@[simp] theorem State.setFb_acc (f : Framebuffer) : (s.setFb f).acc = s.acc := rfl
@[simp] theorem State.setFb_pc (f : Framebuffer) : (s.setFb f).pc = s.pc := rfl
@[simp] theorem State.setFb_log (f : Framebuffer) : (s.setFb f).log = s.log := rfl
@[simp] theorem State.setFb_run (f : Framebuffer) : (s.setFb f).run = s.run := rfl
@[simp] theorem State.setFb_haltCause (f : Framebuffer) : (s.setFb f).haltCause = s.haltCause := rfl
@[simp] theorem State.setFb_fb (f : Framebuffer) : (s.setFb f).fb = f := rfl
@[simp] theorem State.setFb_inq (f : Framebuffer) : (s.setFb f).inq = s.inq := rfl
@[simp] theorem State.setFb_mem (f : Framebuffer) : (s.setFb f).mem = s.mem := rfl
@[simp] theorem State.setFb_out (f : Framebuffer) : (s.setFb f).out = s.out := rfl
@[simp] theorem State.setFb_turns (f : Framebuffer) : (s.setFb f).turns = s.turns := rfl

@[simp] theorem State.setInq_cfg (q : List Byte) : (s.setInq q).cfg = s.cfg := rfl
@[simp] theorem State.setInq_acc (q : List Byte) : (s.setInq q).acc = s.acc := rfl
@[simp] theorem State.setInq_pc (q : List Byte) : (s.setInq q).pc = s.pc := rfl
@[simp] theorem State.setInq_log (q : List Byte) : (s.setInq q).log = s.log := rfl
@[simp] theorem State.setInq_run (q : List Byte) : (s.setInq q).run = s.run := rfl
@[simp] theorem State.setInq_haltCause (q : List Byte) : (s.setInq q).haltCause = s.haltCause := rfl
@[simp] theorem State.setInq_fb (q : List Byte) : (s.setInq q).fb = s.fb := rfl
@[simp] theorem State.setInq_inq (q : List Byte) : (s.setInq q).inq = q := rfl
@[simp] theorem State.setInq_mem (q : List Byte) : (s.setInq q).mem = s.mem := rfl
@[simp] theorem State.setInq_out (q : List Byte) : (s.setInq q).out = s.out := rfl
@[simp] theorem State.setInq_turns (q : List Byte) : (s.setInq q).turns = s.turns := rfl

@[simp] theorem State.setMem_cfg (m : Memory) : (s.setMem m).cfg = s.cfg := rfl
@[simp] theorem State.setMem_acc (m : Memory) : (s.setMem m).acc = s.acc := rfl
@[simp] theorem State.setMem_pc (m : Memory) : (s.setMem m).pc = s.pc := rfl
@[simp] theorem State.setMem_log (m : Memory) : (s.setMem m).log = s.log := rfl
@[simp] theorem State.setMem_run (m : Memory) : (s.setMem m).run = s.run := rfl
@[simp] theorem State.setMem_haltCause (m : Memory) : (s.setMem m).haltCause = s.haltCause := rfl
@[simp] theorem State.setMem_fb (m : Memory) : (s.setMem m).fb = s.fb := rfl
@[simp] theorem State.setMem_inq (m : Memory) : (s.setMem m).inq = s.inq := rfl
@[simp] theorem State.setMem_mem (m : Memory) : (s.setMem m).mem = m := rfl
@[simp] theorem State.setMem_out (m : Memory) : (s.setMem m).out = s.out := rfl
@[simp] theorem State.setMem_turns (m : Memory) : (s.setMem m).turns = s.turns := rfl

@[simp] theorem State.setTurns_cfg (ts : List Turn) : (s.setTurns ts).cfg = s.cfg := rfl
@[simp] theorem State.setTurns_acc (ts : List Turn) : (s.setTurns ts).acc = s.acc := rfl
@[simp] theorem State.setTurns_pc (ts : List Turn) : (s.setTurns ts).pc = s.pc := rfl
@[simp] theorem State.setTurns_log (ts : List Turn) : (s.setTurns ts).log = s.log := rfl
@[simp] theorem State.setTurns_run (ts : List Turn) : (s.setTurns ts).run = s.run := rfl
@[simp] theorem State.setTurns_haltCause (ts : List Turn) : (s.setTurns ts).haltCause = s.haltCause := rfl
@[simp] theorem State.setTurns_fb (ts : List Turn) : (s.setTurns ts).fb = s.fb := rfl
@[simp] theorem State.setTurns_inq (ts : List Turn) : (s.setTurns ts).inq = s.inq := rfl
@[simp] theorem State.setTurns_mem (ts : List Turn) : (s.setTurns ts).mem = s.mem := rfl
@[simp] theorem State.setTurns_out (ts : List Turn) : (s.setTurns ts).out = s.out := rfl
@[simp] theorem State.setTurns_turns (ts : List Turn) : (s.setTurns ts).turns = ts := rfl

@[simp] theorem State.emit_cfg (e : Event) : (s.emit e).cfg = s.cfg := rfl
@[simp] theorem State.emit_acc (e : Event) : (s.emit e).acc = s.acc := rfl
@[simp] theorem State.emit_pc (e : Event) : (s.emit e).pc = s.pc := rfl
@[simp] theorem State.emit_log (e : Event) : (s.emit e).log = s.log := rfl
@[simp] theorem State.emit_run (e : Event) : (s.emit e).run = s.run := rfl
@[simp] theorem State.emit_haltCause (e : Event) : (s.emit e).haltCause = s.haltCause := rfl
@[simp] theorem State.emit_fb (e : Event) : (s.emit e).fb = s.fb := rfl
@[simp] theorem State.emit_inq (e : Event) : (s.emit e).inq = s.inq := rfl
@[simp] theorem State.emit_mem (e : Event) : (s.emit e).mem = s.mem := rfl
@[simp] theorem State.emit_out (e : Event) : (s.emit e).out = s.out ++ [e] := rfl
@[simp] theorem State.emit_turns (e : Event) : (s.emit e).turns = s.turns := rfl

@[simp] theorem State.halt_cfg (c : HaltCause) : (s.halt c).cfg = s.cfg := rfl
@[simp] theorem State.halt_acc (c : HaltCause) : (s.halt c).acc = s.acc := rfl
@[simp] theorem State.halt_pc (c : HaltCause) : (s.halt c).pc = s.pc := rfl
@[simp] theorem State.halt_log (c : HaltCause) : (s.halt c).log = s.log := rfl
@[simp] theorem State.halt_run (c : HaltCause) : (s.halt c).run = false := rfl
@[simp] theorem State.halt_haltCause (c : HaltCause) : (s.halt c).haltCause = c := rfl
@[simp] theorem State.halt_fb (c : HaltCause) : (s.halt c).fb = s.fb := rfl
@[simp] theorem State.halt_inq (c : HaltCause) : (s.halt c).inq = s.inq := rfl
@[simp] theorem State.halt_mem (c : HaltCause) : (s.halt c).mem = s.mem := rfl
@[simp] theorem State.halt_out (c : HaltCause) : (s.halt c).out = s.out := rfl
@[simp] theorem State.halt_turns (c : HaltCause) : (s.halt c).turns = s.turns := rfl

end Sys2Proof.Machine
end

