-- ==== Sys2Proof/Laws/Ops.lean ====
section
/-! SUPPORT. One lemma for each shared operation of the machine that says everything it can do; proofs about instructions
cite these instead of unfolding the operations. -/

namespace Sys2Proof.Machine

variable {s t : State}

/-- The zero-extended operand is the operand's own number. -/
@[simp] theorem dataAddress_eq (opnd : Byte) : dataAddress opnd = opnd.toNat := by
  simp [dataAddress, zext16]
  omega

@[simp] theorem jumpTarget_toNat (opnd : Byte) : (jumpTarget opnd).toNat = opnd.toNat := by
  simp [jumpTarget, zext16]
  omega

/-- A memory read gives the cell's byte inside `[0, N)` and faults outside. -/
theorem memRead_eq (a : Nat) (s : State) :
    memRead a s = if a < s.cfg.memSize then .ok (s.mem.read a) else .error (.memoryOutOfRange a) := rfl

/-- A memory write sets the cell inside `[0, N)` and faults outside. -/
theorem memWrite_eq (a : Nat) (v : Byte) (s : State) :
    memWrite a v s =
      if a < s.cfg.memSize then .ok (s.setMem (s.mem.write a v)) else .error (.memoryOutOfRange a) := rfl

/-- A data operand inside memory is read and the instruction goes on with its value. -/
theorem withData_ok {opnd : Byte} {k : Byte → State} (h : opnd.toNat < s.cfg.memSize) :
    withData opnd s k = .next (k (s.mem.read opnd.toNat)) := by
  simp [withData, readData, memRead_eq, h]

/-- A data operand outside memory ends in the out-of-range fault. -/
theorem withData_fault {opnd : Byte} {k : Byte → State} (h : s.cfg.memSize ≤ opnd.toNat) :
    withData opnd s k = .fault (.memoryOutOfRange opnd.toNat) := by
  simp [withData, readData, memRead_eq, Nat.not_lt.mpr h]

/-- If an instruction with a data operand answers a next state, the operand was inside memory. -/
theorem withData_next {opnd : Byte} {k : Byte → State} (h : withData opnd s k = .next t) :
    opnd.toNat < s.cfg.memSize ∧ t = k (s.mem.read opnd.toNat) := by
  by_cases hb : opnd.toNat < s.cfg.memSize
  · rw [withData_ok hb] at h
    exact ⟨hb, (Host.Outcome.next.inj h).symm⟩
  · rw [withData_fault (Nat.not_lt.mp hb)] at h
    cases h

/-- If a store answers a next state, its address was inside memory and only memory changed. -/
theorem finish_writeData_next {opnd v : Byte} (h : finish (writeData opnd v s) = .next t) :
    opnd.toNat < s.cfg.memSize ∧ t = s.setMem (s.mem.write opnd.toNat v) := by
  by_cases hb : opnd.toNat < s.cfg.memSize
  · simp only [writeData, dataAddress_eq, memWrite_eq, hb, if_true, finish, Host.Outcome.next.injEq] at h
    exact ⟨hb, h.symm⟩
  · simp [writeData, memWrite_eq, hb, finish] at h

theorem boolByte_eq (b : Bool) : boolByte b = if b then 1 else 0 := rfl

/-- A fetch inside memory gives the two bytes at `PC` and `PC + 1`. -/
theorem fetch_ok (h : s.pc.toNat + 1 < s.cfg.memSize) :
    fetch s = .ok (s.mem.read s.pc.toNat, s.mem.read (s.pc.toNat + 1)) := by
  simp [fetch, memRead_eq, h, Nat.lt_of_succ_lt h]

/-- The advance is modulo 65536. -/
@[simp] theorem advancedPc_toNat (pc : Addr) : (advancedPc pc).toNat = (pc.toNat + 2) % 65536 := by
  simp [advancedPc]

/-- Everything an engine step can do: nothing, the end-of-memory stop, or the dispatch of the two fetched bytes. -/
theorem engineStep_eq (s : State) :
    engineStep s =
      if s.run = false then .next s
      else if s.cfg.memSize ≤ s.pc.toNat + 1 then .next (s.halt .endOfMemory)
      else dispatch (s.mem.read s.pc.toNat) (s.mem.read (s.pc.toNat + 1)) s := by
  unfold engineStep State.atEndOfMemory
  by_cases hr : s.run = false
  · simp [hr]
  · by_cases he : s.cfg.memSize ≤ s.pc.toNat + 1
    · simp [hr, he]
    · simp [hr, he, fetch_ok (Nat.not_le.mp he)]

end Sys2Proof.Machine
end

