-- ==== Sys2Proof/Laws/Devices.lean ====
section
/-! SUPPORT. What the framebuffer and queue operations do, said once for each. -/

namespace Sys2Proof.Machine

variable {w h : Nat}

/-- Inside the grid a cell's key tells the cell. -/
theorem cellKey_inj {x y x' y' : Nat} (hx : x < w) (hx' : x' < w) :
    cellKey w x y = cellKey w x' y' ↔ x = x' ∧ y = y' := by
  refine ⟨fun hk => ?_, fun ⟨h1, h2⟩ => by rw [h1, h2]⟩
  have hmod := congrArg (· % w) hk
  have hdiv := congrArg (· / w) hk
  have hw : 0 < w := Nat.lt_of_le_of_lt (Nat.zero_le _) hx
  simp only [cellKey, Nat.mul_add_mod', Nat.mod_eq_of_lt hx, Nat.mod_eq_of_lt hx'] at hmod
  simp only [cellKey, Nat.add_comm _ x, Nat.add_comm _ x', Nat.add_mul_div_right _ _ hw, Nat.div_eq_of_lt hx,
    Nat.div_eq_of_lt hx', Nat.zero_add] at hdiv
  exact ⟨hmod, hdiv⟩

/-- The key of a cell inside the grid is below the number of cells. -/
theorem cellKey_lt {x y : Nat} (hx : x < w) (hy : y < h) : cellKey w x y < w * h := by
  have : y * w + w ≤ h * w := by
    rw [← Nat.succ_mul]
    exact Nat.mul_le_mul_right w hy
  simp only [cellKey]
  rw [Nat.mul_comm w h]
  omega

@[simp] theorem Framebuffer.inBounds_iff (fb : Framebuffer) :
    fb.inBounds w h = true ↔ fb.x.toNat < w ∧ fb.y.toNat < h := by
  simp [Framebuffer.inBounds]

/-- Out of bounds `draw_pixel` is a no-op. -/
theorem Framebuffer.drawPixel_outside {fb : Framebuffer} (hb : ¬ (fb.x.toNat < w ∧ fb.y.toNat < h)) :
    fb.drawPixel w h = fb := by
  have : ¬ fb.inBounds w h = true := fun hc => hb ((Framebuffer.inBounds_iff fb).mp hc)
  simp [Framebuffer.drawPixel, this]

/-- In bounds `draw_pixel` writes one cell and sets the flag. -/
theorem Framebuffer.drawPixel_inside {fb : Framebuffer} (hb : fb.x.toNat < w ∧ fb.y.toNat < h) :
    fb.drawPixel w h =
      { fb with
        grid := sparseWrite Pixel.black fb.grid (cellKey w fb.x.toNat fb.y.toNat) ⟨fb.r, fb.g, fb.b⟩
        dirty := true } := by
  have : fb.inBounds w h = true := (Framebuffer.inBounds_iff fb).mpr hb
  simp [Framebuffer.drawPixel, this]

/-- `get_pixel` after one grid write: the written cell gives the pixel, every other cell is as before. -/
theorem Framebuffer.getPixel_write (fb : Framebuffer) {x y : Nat} (hx : x < w) (hy : y < h) (p : Pixel) (x' y' : Nat) :
    Framebuffer.getPixel w h { fb with grid := sparseWrite Pixel.black fb.grid (cellKey w x y) p } x' y' =
      if x' = x ∧ y' = y then p else fb.getPixel w h x' y' := by
  unfold Framebuffer.getPixel
  by_cases hin : x' < w ∧ y' < h
  · simp only [hin, and_self, if_true, sparseRead_write, cellKey_inj hin.1 hx]
  · have : ¬ (x' = x ∧ y' = y) := fun ⟨h1, h2⟩ => hin ⟨h1 ▸ hx, h2 ▸ hy⟩
    simp [hin, this]

/-- A device register write leaves the grid and the flag alone. -/
@[simp] theorem Framebuffer.setReg_grid (fb : Framebuffer) (reg : FbReg) (v : Byte) : (fb.setReg reg v).grid = fb.grid := by
  cases reg <;> rfl

@[simp] theorem Framebuffer.setReg_dirty (fb : Framebuffer) (reg : FbReg) (v : Byte) : (fb.setReg reg v).dirty = fb.dirty := by
  cases reg <;> rfl

/-- What `draw_pixel` leaves of the device's other fields. -/
@[simp] theorem Framebuffer.drawPixel_regs (fb : Framebuffer) :
    (fb.drawPixel w h).x = fb.x ∧ (fb.drawPixel w h).y = fb.y ∧ (fb.drawPixel w h).r = fb.r ∧
      (fb.drawPixel w h).g = fb.g ∧ (fb.drawPixel w h).b = fb.b := by
  unfold Framebuffer.drawPixel
  split <;> simp

/-- `draw_pixel` keeps the grid's canonical form. -/
theorem Framebuffer.drawPixel_grid_wf {fb : Framebuffer} (hg : Grid.wf fb.grid = true) :
    Grid.wf (fb.drawPixel w h).grid = true := by
  by_cases hb : fb.x.toNat < w ∧ fb.y.toNat < h
  · rw [Framebuffer.drawPixel_inside hb]
    exact sparseWrite_wf hg _ _
  · rwa [Framebuffer.drawPixel_outside hb]

/-- `draw_pixel` keeps every listed cell inside the grid. -/
theorem Framebuffer.drawPixel_grid_below {fb : Framebuffer} (hg : Grid.below fb.grid (w * h) = true) :
    Grid.below (fb.drawPixel w h).grid (w * h) = true := by
  by_cases hb : fb.x.toNat < w ∧ fb.y.toNat < h
  · rw [Framebuffer.drawPixel_inside hb]
    exact sparseWrite_below hg (cellKey_lt hb.1 hb.2) _
  · rwa [Framebuffer.drawPixel_outside hb]

/-- A host push never changes what is already queued. -/
theorem pushKey_eq (k : KeySymbol) (q : List Byte) : ∃ r, pushKey k q = q ++ r := by
  cases k with
  | named k => exact ⟨[keyCode k], rfl⟩
  | other n => exact ⟨[], (List.append_nil q).symm⟩

end Sys2Proof.Machine
end

