-- ==== Sys2Proof/Laws/Idioms.lean ====
section
/-! SUPPORT. What the idioms' building blocks do, said once for each: sequences, code in memory, labels, the register sets of
a set-pixel call, and the allocation of cells. -/

namespace Sys2Proof.Machine

variable {s t : State}

/-- A sequence runs its first part and then its second. -/
theorem execAll_append (first second : List Instr) (h : execAll first s = .next t) :
    execAll (first ++ second) s = execAll second t := by
  induction first generalizing s with
  | nil =>
    cases h
    rfl
  | cons i rest ih =>
    simp only [List.cons_append, execAll] at h ⊢
    cases hi : exec i s with
    | next u =>
      rw [hi] at h
      exact ih h
    | fault f => simp [hi] at h
    | refused r => simp [hi] at h

/-- A store inside memory writes its one cell. -/
theorem exec_store {a : Byte} (h : a.toNat < s.cfg.memSize) :
    exec (.store a) s = .next (s.setMem (s.mem.write a.toNat s.acc)) := by
  simp [exec, execStore, writeData, memWrite_eq, h, finish]

/-- A load inside memory brings its cell to ACC. -/
theorem exec_load {a : Byte} (h : a.toNat < s.cfg.memSize) : exec (.load a) s = .next (s.setAcc (s.mem.read a.toNat)) := by
  simp [exec, execLoad, withData_ok h]

/-- The immediate register sets are the device's `set_reg`. -/
@[simp] theorem exec_setImmediate (reg : FbReg) (v : Byte) (s : State) :
    exec (setImmediate reg v) s = .next (s.setFbReg reg v) := by
  cases reg <;> rfl

/-- The register sets from ACC are the device's `set_reg` with ACC. -/
@[simp] theorem exec_setFromAcc (reg : FbReg) (s : State) : exec (setFromAcc reg) s = .next (s.setFbReg reg s.acc) := by
  cases reg <;> rfl

/-- With five literals a set-pixel call takes no cell and no scratch. -/
theorem setPixelCall_literals (L : Layout) (sc : Scratch) (x y r g b : Byte) :
    setPixelCall L sc (.literal x) (.literal y) (.literal r) (.literal g) (.literal b) = setPixelIdiom x y r g b := rfl

/-- With five variables a set-pixel call loads each one's cell. -/
theorem setPixelCall_names (L : Layout) (sc : Scratch) (x y r g b : Token) :
    setPixelCall L sc (.named x) (.named y) (.named r) (.named g) (.named b) =
      setPixelFromCellsIdiom (L.variableByte x) (L.variableByte y) (L.variableByte r) (L.variableByte g)
        (L.variableByte b) := rfl

/-- When a label is a byte, the byte is its address. -/
theorem labelByte_eq_some {a : Nat} {v : Byte} : labelByte a = some v ↔ a ≤ 255 ∧ v = BitVec.ofNat 8 a := by
  unfold labelByte
  split <;> simp_all [eq_comm]

/-- A label that no byte holds has no code. -/
theorem labelByte_eq_none {a : Nat} : labelByte a = none ↔ 255 < a := by
  unfold labelByte
  split <;> simp_all

/-- Code in memory is its parts, one behind the other. -/
theorem codeAt_append (m : OpMap) (mem : Memory) (a : Nat) (first second : List Instr) :
    codeAt m mem a (first ++ second) = (codeAt m mem a first && codeAt m mem (a + codeBytes first) second) := by
  induction first generalizing a with
  | nil => simp [codeAt, codeBytes]
  | cons i rest ih =>
    simp only [List.cons_append, codeAt, ih, Bool.and_assoc, codeBytes, List.length_cons]
    rw [show a + 2 + 2 * rest.length = a + 2 * (rest.length + 1) by omega]

/-- The first uses are the members, each once. -/
theorem mem_firstUses {α : Type} [DecidableEq α] {l : List α} {a : α} : a ∈ firstUses l ↔ a ∈ l := by
  induction l with
  | nil => simp [firstUses]
  | cons b rest ih =>
    by_cases hab : a = b <;> simp [firstUses, ih, hab]

theorem firstUses_nodup {α : Type} [DecidableEq α] (l : List α) : (firstUses l).Nodup := by
  induction l with
  | nil => simp [firstUses]
  | cons b rest ih => simp [firstUses, ih.filter]

/-- A fitting layout keeps the constants in 100 to 199 and the variables in 200 to 253. -/
theorem Layout.fits_iff (L : Layout) (n : Nat) :
    L.fits n = true ↔ n ≤ 100 ∧ L.constants.length ≤ 100 ∧ L.names.length ≤ 54 := by
  simp only [Layout.fits, layoutDisjoint, Bool.and_eq_true, decide_eq_true_eq]
  simp only [poolBase, variableBase, scratchBase]
  omega

theorem Layout.constantAddress_lt {L : Layout} {n : Nat} (h : L.fits n = true) {v : Byte} (hv : v ∈ L.constants) :
    100 ≤ L.constantAddress v ∧ L.constantAddress v < 200 := by
  have := (L.fits_iff n).mp h
  have := List.idxOf_lt_length_of_mem hv
  simp only [Layout.constantAddress, poolBase]
  omega

theorem Layout.variableAddress_lt {L : Layout} {n : Nat} (h : L.fits n = true) {x : Token} (hx : x ∈ L.names) :
    200 ≤ L.variableAddress x ∧ L.variableAddress x < 254 := by
  have := (L.fits_iff n).mp h
  have := List.idxOf_lt_length_of_mem hx
  simp only [Layout.variableAddress, variableBase]
  omega

/-- A constant's operand byte names its pool cell. -/
theorem Layout.constantByte_toNat {L : Layout} {n : Nat} (h : L.fits n = true) {v : Byte} (hv : v ∈ L.constants) :
    (L.constantByte v).toNat = L.constantAddress v := by
  have := Layout.constantAddress_lt h hv
  simp only [Layout.constantByte, BitVec.toNat_ofNat]
  omega

/-- A variable's operand byte names its cell. -/
theorem Layout.variableByte_toNat {L : Layout} {n : Nat} (h : L.fits n = true) {x : Token} (hx : x ∈ L.names) :
    (L.variableByte x).toNat = L.variableAddress x := by
  have := Layout.variableAddress_lt h hx
  simp only [Layout.variableByte, BitVec.toNat_ofNat]
  omega

/-- Variables keep apart. -/
theorem Layout.variableAddress_inj {L : Layout} {x y : Token} (hx : x ∈ L.names)
    (h : L.variableAddress x = L.variableAddress y) : x = y := by
  simp only [Layout.variableAddress, Nat.add_left_cancel_iff] at h
  exact (List.idxOf_inj hx).mp h

/-- A placed list starts with its first byte at its address. -/
theorem mem_placeAt {a : Nat} {l : List Byte} {c : Host.Cell} :
    c ∈ placeAt a l ↔ ∃ k, l[k]? = some c.2 ∧ c.1 = a + k := by
  induction l generalizing a with
  | nil => simp [placeAt]
  | cons b rest ih =>
    simp only [placeAt, List.mem_cons, ih]
    constructor
    · rintro (rfl | ⟨k, hk, hc⟩)
      · exact ⟨0, rfl, rfl⟩
      · exact ⟨k + 1, by simpa using hk, by omega⟩
    · rintro ⟨_ | k, hk, hc⟩
      · simp only [List.getElem?_cons_zero, Option.some.injEq] at hk
        exact .inl (Prod.ext (by simpa using hc) hk.symm)
      · exact .inr ⟨k, by simpa using hk, by omega⟩

end Sys2Proof.Machine
end

