-- ==== Sys2Proof/Laws/Step.lean ====
section
/-! SUPPORT. What one step can be: a host move or an engine step, by whose turn it is. -/

namespace Sys2Proof.Machine

variable {s t : State}

/-- Everything a step can be. -/
theorem step_eq (s : State) :
    (∃ m rest, s.turns = .host m :: rest ∧ step s = .next (hostMove m (s.setTurns rest))) ∨
      ((s.turns.head? = none ∨ s.turns.head? = some .engine) ∧ step s = engineStep (s.setTurns s.turns.tail)) := by
  unfold step
  cases hs : s.turns with
  | nil =>
    have : s.setTurns [] = s := by rw [← hs]; rfl
    exact .inr ⟨.inl rfl, by simp [this]⟩
  | cons a rest =>
    cases a with
    | engine => exact .inr ⟨.inr rfl, rfl⟩
    | host m => exact .inl ⟨m, rest, rfl, rfl⟩

/-- Every way an engine step can answer a next state. -/
theorem engineStep_next (h : engineStep s = .next t) :
    (s.run = false ∧ t = s) ∨
    (s.run = true ∧ s.cfg.memSize ≤ s.pc.toNat + 1 ∧ t = s.halt .endOfMemory) ∨
    (s.run = true ∧ s.pc.toNat + 1 < s.cfg.memSize ∧
      ((∃ why, decode s.cfg.opmap (s.mem.read s.pc.toNat) (s.mem.read (s.pc.toNat + 1)) = .rejected why ∧
          t = s.stopUnmapped (s.mem.read s.pc.toNat)) ∨
        ∃ i, decode s.cfg.opmap (s.mem.read s.pc.toNat) (s.mem.read (s.pc.toNat + 1)) = .instr i ∧
          exec i (s.fetched (s.mem.read s.pc.toNat) (s.mem.read (s.pc.toNat + 1))) = .next t)) := by
  rw [engineStep_eq] at h
  by_cases hr : s.run = false
  · simp only [hr, if_true, Host.Outcome.next.injEq] at h
    exact .inl ⟨hr, h.symm⟩
  · have hr' : s.run = true := by simpa using hr
    by_cases he : s.cfg.memSize ≤ s.pc.toNat + 1
    · rw [if_neg hr, if_pos he, Host.Outcome.next.injEq] at h
      exact .inr (.inl ⟨hr', he, h.symm⟩)
    · rw [if_neg hr, if_neg he, dispatch] at h
      refine .inr (.inr ⟨hr', Nat.not_le.mp he, ?_⟩)
      cases hd : decode s.cfg.opmap (s.mem.read s.pc.toNat) (s.mem.read (s.pc.toNat + 1)) with
      | instr i => exact .inr ⟨i, rfl, by simpa [hd] using h⟩
      | rejected why => exact .inl ⟨why, rfl, by simpa [hd] using h.symm⟩

/-- What the host's moves leave alone. -/
theorem hostMove_frame (m : HostMove) (s : State) :
    (hostMove m s).cfg = s.cfg ∧ (hostMove m s).acc = s.acc ∧ (hostMove m s).pc = s.pc ∧ (hostMove m s).log = s.log ∧
      (hostMove m s).mem = s.mem ∧ (hostMove m s).fb.grid = s.fb.grid ∧ (hostMove m s).out = s.out ∧
      (hostMove m s).turns = s.turns := by
  cases m <;> simp [hostMove, hostStop, Framebuffer.resetDirty]
  split <;> simp

end Sys2Proof.Machine
end

