-- ==== Sys2Proof/Tests/Slice0.lean ====
section
/-! SUPPORT. Tests of one step each, with their expected results taken from spec/95_test_vectors.md and the worked examples
of the instruction rules; decode tests with words written out bit by bit from the encodings of spec/opcode_table.json; and,
for each statement with hypotheses, a witness that meets them together. -/

namespace Sys2Proof.Machine

/-- A machine with the standard parameters, an accumulator value and some cells set. -/
def testState (acc : Byte) (cells : List Host.Cell) : State :=
  { State.reset with acc := acc, mem := cells.foldl (fun m c => m.write c.1 c.2) [] }

/-- The outcome is a next state of which a test is true. -/
def nextHas (o : Host.Outcome State Fault Refusal) (p : State → Bool) : Bool :=
  match o with
  | .next t => p t
  | .fault _ => false
  | .refused _ => false

/-- The standard map with the bytes of NOP and HLT exchanged: another legal assignment (30_encoding.md R63). -/
def exchangedMap : OpMap :=
  OpMap.standard.map (fun e =>
    if e.2 = .NOP then (0x08, .NOP) else if e.2 = .HLT then (0x00, .HLT) else e)

/-- A memory smaller than 00_scope.md R5 allows. -/
def smallConfig : Config := { standardConfig with memSize := 100 }

/-! ## WellFormed refuses an ill-formed term for each of its checks -/

theorem test_opmap_refuses_byte_outside_its_range : OpMap.inRange [(0x10, .NOP)] = false := by decide
theorem test_opmap_refuses_a_byte_twice : OpMap.uniqueBytes [(0x00, .NOP), (0x00, .LOAD)] = false := by decide
theorem test_opmap_refuses_a_mnemonic_twice : OpMap.uniqueMnemonics [(0x00, .NOP), (0x01, .NOP)] = false := by decide
theorem test_opmap_refuses_a_missing_mnemonic : OpMap.complete OpMap.standard.tail = false := by decide
theorem test_config_refuses_255_cells : Config.memSizeOk { standardConfig with memSize := 255 } = false := by decide
theorem test_config_refuses_65537_cells : Config.memSizeOk { standardConfig with memSize := 65537 } = false := by decide
theorem test_config_refuses_zero_width : Config.gridOk { standardConfig with fbW := 0 } = false := by decide
theorem test_config_refuses_zero_height : Config.gridOk { standardConfig with fbH := 0 } = false := by decide
theorem test_config_refuses_a_bad_opmap : Config.wf { standardConfig with opmap := [] } = false := by decide
theorem test_instr_refuses_an_unmapped_mnemonic : Instr.wf OpMap.standard.tail (.nop 0) = false := by decide
theorem test_standard_config_is_legal : standardConfig.wf = true := by decide
theorem test_exchanged_map_is_legal : exchangedMap.wf = true := by decide

/-! ## Decoding: one word per row of spec/opcode_table.json, opcode bits then operand bits, and the unmapped borders -/

theorem test_decode_control_words_0 :
    decodeTableWord 16 0b0000000000010000 = some (.nop 0b00010000) ∧
    decodeTableWord 16 0b0000000101111111 = some (.load 0b01111111) ∧
    decodeTableWord 16 0b0000001011001000 = some (.store 0b11001000) ∧
    decodeTableWord 16 0b0000001100000000 = some (.add 0b00000000) ∧
    decodeTableWord 16 0b0000010011111111 = some (.sub 0b11111111) ∧
    decodeTableWord 16 0b0000010101000001 = some (.jmp 0b01000001) ∧
    decodeTableWord 16 0b0000011000010000 = some (.jz 0b00010000) ∧
    decodeTableWord 16 0b0000011101111111 = some (.jnz 0b01111111) := by decide
theorem test_decode_control_words_1 :
    decodeTableWord 16 0b0000100011001000 = some (.hlt 0b11001000) ∧
    decodeTableWord 16 0b0000100100000000 = some (.cmp 0b00000000) ∧
    decodeTableWord 16 0b0000101011111111 = some (.cmpVal 0b11111111) ∧
    decodeTableWord 16 0b0000101101000001 = some (.gt 0b01000001) ∧
    decodeTableWord 16 0b0000110000010000 = some (.gtVal 0b00010000) ∧
    decodeTableWord 16 0b0000110101111111 = some (.lt 0b01111111) ∧
    decodeTableWord 16 0b0000111011001000 = some (.ltVal 0b11001000) ∧
    decodeTableWord 16 0b0000111100000000 = some (.notAcc 0b00000000) := by decide
theorem test_decode_display_words_0 :
    decodeTableWord 16 0b0001000000010000 = some (.setX 0b00010000) ∧
    decodeTableWord 16 0b0001000101111111 = some (.setY 0b01111111) ∧
    decodeTableWord 16 0b0001001011001000 = some (.setR 0b11001000) ∧
    decodeTableWord 16 0b0001001100000000 = some (.setG 0b00000000) ∧
    decodeTableWord 16 0b0001010011111111 = some (.setB 0b11111111) ∧
    decodeTableWord 16 0b0001010101000001 = some (.setXFromAcc 0b01000001) ∧
    decodeTableWord 16 0b0001011000010000 = some (.setYFromAcc 0b00010000) ∧
    decodeTableWord 16 0b0001011101111111 = some (.setRFromAcc 0b01111111) := by decide
theorem test_decode_display_words_1 :
    decodeTableWord 16 0b0001100011001000 = some (.setGFromAcc 0b11001000) ∧
    decodeTableWord 16 0b0001100100000000 = some (.setBFromAcc 0b00000000) ∧
    decodeTableWord 16 0b0001101011111111 = some (.drawPixel 0b11111111) ∧
    decodeTableWord 16 0b0001101101000001 = some (.clearScreen 0b01000001) := by decide
theorem test_decode_input_words_0 :
    decodeTableWord 16 0b0010000000010000 = some (.keyAvailable 0b00010000) ∧
    decodeTableWord 16 0b0010000101111111 = some (.getKey 0b01111111) ∧
    decodeTableWord 16 0b0010001011001000 = some (.peekKey 0b11001000) := by decide
theorem test_decode_logging_words_0 :
    decodeTableWord 16 0b0011000000010000 = some (.logAdd 0b00010000) ∧
    decodeTableWord 16 0b0011000101111111 = some (.logLoad 0b01111111) ∧
    decodeTableWord 16 0b0011001011001000 = some (.logStore 0b11001000) ∧
    decodeTableWord 16 0b0011001100000000 = some (.logPrint 0b00000000) := by decide
theorem test_decode_refuses_the_borders :
    decodeTableWord 16 0x1C99 = none ∧ decodeTableWord 16 0x1F00 = none ∧ decodeTableWord 16 0x2300 = none ∧
    decodeTableWord 16 0x2F00 = none ∧ decodeTableWord 16 0x3400 = none ∧ decodeTableWord 16 0xFF00 = none := by decide
theorem test_decode_truncated : decodeBytes OpMap.standard [0x01] = (.rejected .truncated, [0x01]) := by decide
theorem test_decode_takes_two_bytes :
    decodeBytes OpMap.standard [0x01, 0x10, 0x08] = (.instr (.load 0x10), [0x08]) := by decide
theorem test_encode_is_opcode_then_operand : encode OpMap.standard (.load 0x10) = some (0x01, 0x10) := by decide

/-! ## One step each -/

/-- V-C1 -/
theorem test_nop_ignores_its_operand :
    nextHas (step (testState 0x5A [(0, 0), (1, 0x77)])) (fun t => t.pc == 2 && t.acc == 0x5A) = true := by decide
/-- V-C2 -/
theorem test_load_last_cell :
    nextHas (step (testState 0 [(0, 1), (1, 0xFF), (0xFF, 0xAB)])) (fun t => t.acc == 0xAB && t.pc == 2) = true := by decide
/-- V-C3 -/
theorem test_load_its_own_opcode :
    nextHas (step (testState 0 [(0, 1)])) (fun t => t.acc == 0x01) = true := by decide
/-- V-C4 -/
theorem test_store :
    nextHas (step (testState 0x7E [(0, 2), (1, 0xC8)])) (fun t => t.mem.read 0xC8 == 0x7E && t.acc == 0x7E) = true := by decide
/-- V-C5 -/
theorem test_store_over_its_own_operand :
    nextHas (step (testState 0x33 [(0, 2), (1, 1)])) (fun t => t.mem.read 1 == 0x33 && t.pc == 2) = true := by decide
/-- V-C6 -/
theorem test_add_wraps :
    nextHas (step (testState 200 [(0, 3), (1, 0x10), (0x10, 100)])) (fun t => t.acc == 44) = true := by decide
/-- V-C12 -/
theorem test_add_its_own_opcode :
    nextHas (step (testState 1 [(0, 3)])) (fun t => t.acc == 4) = true := by decide
/-- V-C9 -/
theorem test_sub_borrows :
    nextHas (step (testState 3 [(0, 4), (1, 0x10), (0x10, 5)])) (fun t => t.acc == 254) = true := by decide
/-- R114's example -/
theorem test_sub_order_of_operands :
    nextHas (step (testState 5 [(0, 4), (1, 0x82), (0x82, 1)])) (fun t => t.acc == 4) = true := by decide
/-- V-C22, N = 512 -/
theorem test_jmp_clears_the_high_byte :
    nextHas (step { testState 0 [(0x100, 5), (0x101, 0x10)] with pc := 0x100, cfg := { standardConfig with memSize := 512 } }) (fun t => t.pc == 0x0010) = true := by decide
/-- V-C21 -/
theorem test_jmp_to_last_cell_still_runs :
    nextHas (step (testState 0 [(0, 5), (1, 0xFF)])) (fun t => t.pc == 0xFF && t.run) = true := by decide
/-- V-C15 -/
theorem test_jz_taken :
    nextHas (step { testState 0 [(0x10, 6), (0x11, 0x20)] with pc := 0x10 }) (fun t => t.pc == 0x20 && t.acc == 0) = true := by decide
/-- V-C16 -/
theorem test_jz_not_taken :
    nextHas (step { testState 1 [(0x10, 6), (0x11, 0x20)] with pc := 0x10 }) (fun t => t.pc == 0x12 && t.acc == 1) = true := by decide
/-- V-C17 -/
theorem test_jnz_taken :
    nextHas (step { testState 0xFF [(0x10, 7), (0x11, 0x20)] with pc := 0x10 }) (fun t => t.pc == 0x20) = true := by decide
/-- V-C18 -/
theorem test_jnz_not_taken :
    nextHas (step { testState 0 [(0x10, 7), (0x11, 0x20)] with pc := 0x10 }) (fun t => t.pc == 0x12) = true := by decide
/-- V-C20 -/
theorem test_hlt_ignores_its_operand :
    nextHas (step { testState 0 [(6, 8), (7, 0xFF)] with pc := 6 }) (fun t => !t.run && t.haltCause == .hlt && t.pc == 8) = true := by decide
/-- V-M1 -/
theorem test_cmp_equal_gives_0 :
    nextHas (step (testState 7 [(0, 9), (1, 0xC8), (0xC8, 7)])) (fun t => t.acc == 0) = true := by decide
/-- V-M2 -/
theorem test_cmp_different_gives_1 :
    nextHas (step (testState 7 [(0, 9), (1, 0xC8), (0xC8, 8)])) (fun t => t.acc == 1) = true := by decide
/-- V-M5 -/
theorem test_cmp_val_equal :
    nextHas (step (testState 0x1B [(0, 0x0A), (1, 0x1B)])) (fun t => t.acc == 0) = true := by decide
/-- V-M6 -/
theorem test_cmp_val_different :
    nextHas (step (testState 0x1C [(0, 0x0A), (1, 0x1B)])) (fun t => t.acc == 1) = true := by decide
/-- V-M11 -/
theorem test_gt_is_unsigned :
    nextHas (step (testState 0x80 [(0, 0x0B), (1, 0xC8), (0xC8, 0x7F)])) (fun t => t.acc == 1) = true := by decide
/-- V-M10 -/
theorem test_gt_equal_gives_0 :
    nextHas (step (testState 5 [(0, 0x0B), (1, 0xC8), (0xC8, 5)])) (fun t => t.acc == 0) = true := by decide
/-- V-M12 -/
theorem test_gt_val :
    nextHas (step (testState 255 [(0, 0x0C), (1, 0xFE)])) (fun t => t.acc == 1) = true := by decide
/-- V-M14 -/
theorem test_gt_val_255 :
    nextHas (step (testState 255 [(0, 0x0C), (1, 0xFF)])) (fun t => t.acc == 0) = true := by decide
/-- V-M15 -/
theorem test_lt :
    nextHas (step (testState 3 [(0, 0x0D), (1, 0xC8), (0xC8, 5)])) (fun t => t.acc == 1) = true := by decide
/-- V-M17 -/
theorem test_lt_is_unsigned :
    nextHas (step (testState 0xFF [(0, 0x0D), (1, 0xC8)])) (fun t => t.acc == 0) = true := by decide
/-- V-M18 -/
theorem test_lt_val :
    nextHas (step (testState 3 [(0, 0x0E), (1, 4)])) (fun t => t.acc == 1) = true := by decide
/-- V-M19 -/
theorem test_lt_val_equal :
    nextHas (step (testState 4 [(0, 0x0E), (1, 4)])) (fun t => t.acc == 0) = true := by decide
/-- V-M20 -/
theorem test_not_of_zero :
    nextHas (step (testState 0 [(0, 0x0F)])) (fun t => t.acc == 1) = true := by decide
/-- V-M22 -/
theorem test_not_is_logical :
    nextHas (step (testState 0x0F [(0, 0x0F)])) (fun t => t.acc == 0) = true := by decide
/-- V-D3 -/
theorem test_set_x_has_no_bounds_check :
    nextHas (step (testState 0 [(0, 0x10), (1, 0xC8)])) (fun t => t.fb.x == 200 && !t.fb.dirty) = true := by decide
/-- R157's example -/
theorem test_set_y :
    nextHas (step (testState 0 [(0, 0x11), (1, 0x0A)])) (fun t => t.fb.y == 10) = true := by decide
/-- V-D2 -/
theorem test_set_r :
    nextHas (step (testState 0 [(0, 0x12), (1, 0xFF)])) (fun t => t.fb.r == 255) = true := by decide
/-- R159's shape with another byte -/
theorem test_set_g :
    nextHas (step (testState 0 [(0, 0x13), (1, 0x21)])) (fun t => t.fb.g == 0x21) = true := by decide
/-- R160's example -/
theorem test_set_b :
    nextHas (step (testState 0 [(0, 0x14), (1, 0x80)])) (fun t => t.fb.b == 128) = true := by decide
/-- R161's example -/
theorem test_set_x_from_acc :
    nextHas (step (testState 3 [(0, 0x15)])) (fun t => t.fb.x == 3 && t.acc == 3) = true := by decide
/-- V-D4 -/
theorem test_set_y_from_acc :
    nextHas (step (testState 63 [(0, 0x16)])) (fun t => t.fb.y == 63 && t.acc == 63) = true := by decide
/-- R163's example -/
theorem test_set_r_from_acc :
    nextHas (step (testState 200 [(0, 0x17)])) (fun t => t.fb.r == 200) = true := by decide
/-- R164's shape with another byte -/
theorem test_set_g_from_acc :
    nextHas (step (testState 9 [(0, 0x18)])) (fun t => t.fb.g == 9) = true := by decide
/-- V-D4b -/
theorem test_set_b_from_acc_ignores_operand :
    nextHas (step (testState 0x80 [(0, 0x19), (1, 0x55)])) (fun t => t.fb.b == 0x80) = true := by decide
/-- V-D5 -/
theorem test_draw_pixel_at_the_corner :
    nextHas (step { testState 0 [(0, 0x1A)] with fb := ⟨63, 63, 1, 2, 3, [], false⟩ }) (fun t => t.getPixel 63 63 == ⟨1, 2, 3⟩ && t.fb.dirty && t.getPixel 62 63 == ⟨0, 0, 0⟩) = true := by decide
/-- V-D6 -/
theorem test_draw_pixel_outside_does_nothing :
    nextHas (step { testState 0 [(0, 0x1A)] with fb := ⟨64, 0, 9, 9, 9, [], false⟩ }) (fun t => t.fb == ⟨64, 0, 9, 9, 9, [], false⟩) = true := by decide
/-- V-D11 with the one pixel of V-D5 -/
theorem test_clear_screen :
    nextHas (step { testState 0 [(0, 0x1B)] with fb := ⟨7, 0, 9, 0, 0, [(63 * 64 + 63, ⟨1, 2, 3⟩)], false⟩ }) (fun t => t.getPixel 63 63 == ⟨0, 0, 0⟩ && t.fb.dirty && t.fb.x == 7 && t.fb.r == 9) = true := by decide
/-- V-I1 -/
theorem test_key_available_on_empty :
    nextHas (step (testState 9 [(0, 0x20)])) (fun t => t.acc == 0 && t.inq == []) = true := by decide
/-- V-I2 -/
theorem test_key_available :
    nextHas (step { testState 9 [(0, 0x20)] with inq := [0x41] }) (fun t => t.acc == 1 && t.inq == [0x41]) = true := by decide
/-- V-I3 -/
theorem test_get_key :
    nextHas (step { testState 0 [(0, 0x21)] with inq := [0x41, 0x42] }) (fun t => t.acc == 0x41 && t.inq == [0x42]) = true := by decide
/-- V-I4 -/
theorem test_get_key_on_empty :
    nextHas (step (testState 9 [(0, 0x21)])) (fun t => t.acc == 0 && t.inq == []) = true := by decide
/-- V-I5 -/
theorem test_peek_key :
    nextHas (step { testState 0 [(0, 0x22)] with inq := [0x41, 0x42] }) (fun t => t.acc == 0x41 && t.inq == [0x41, 0x42]) = true := by decide
/-- V-I6 -/
theorem test_peek_key_on_empty :
    nextHas (step (testState 9 [(0, 0x22)])) (fun t => t.acc == 0) = true := by decide
/-- V-L9, imm -/
theorem test_log_add_immediate :
    nextHas (step { testState 3 [(0, 0x30), (1, 0x10), (0x10, 5)] with log := 1 }) (fun t => t.log == 0x11 && t.acc == 3) = true := by decide
/-- V-L9, mem -/
theorem test_log_add_memory_mode :
    nextHas (step { testState 3 [(0, 0x30), (1, 0x10), (0x10, 5)] with log := 1, cfg := { standardConfig with logAddMode := .mem } }) (fun t => t.log == 6) = true := by decide
/-- V-L5 -/
theorem test_log_load :
    nextHas (step { testState 0 [(0, 0x31)] with log := 0x42 }) (fun t => t.acc == 0x42 && t.log == 0x42) = true := by decide
/-- V-L6 -/
theorem test_log_store :
    nextHas (step (testState 0x41 [(0, 0x32)])) (fun t => t.log == 0x41 && t.acc == 0x41) = true := by decide
/-- V-L7 -/
theorem test_log_print :
    nextHas (step { testState 0 [(0, 0x33)] with log := 0x42 }) (fun t => t.out.getLast? == some (.logPrint 0x42) && t.log == 0x42) = true := by decide
/-- V-E1 -/
theorem test_unmapped_opcode :
    nextHas (step { testState 14 [(4, 0x1C), (5, 0x99)] with pc := 4 }) (fun t => !t.run && t.haltCause == .unmappedOpcode && t.pc == 6 && t.acc == 14 && t.out == [.unmappedOpcode 4 0x1C]) = true := by decide
/-- V-E13 -/
theorem test_end_of_memory_before_the_fetch :
    nextHas (step { testState 0 [(255, 0xFF)] with pc := 255 }) (fun t => !t.run && t.haltCause == .endOfMemory && t.pc == 255 && t.out == []) = true := by decide
/-- V-E9, N = 65536 -/
theorem test_pc_wraps :
    nextHas (step { State.reset with pc := 65534, cfg := { standardConfig with memSize := 65536 } }) (fun t => t.pc == 0 && t.run) = true := by decide
/-- V-E10 -/
theorem test_halted_takes_no_step :
    nextHas (step { testState 0 [(8, 1), (9, 0x10)] with pc := 8, run := false, haltCause := .hlt }) (fun t => t == { testState 0 [(8, 1), (9, 0x10)] with pc := 8, run := false, haltCause := .hlt }) = true := by decide
/-- V-E11 -/
theorem test_host_stop :
    nextHas (step { State.reset with turns := [.host .stop] }) (fun t => !t.run && t.haltCause == .hostStop && t.pc == 0) = true := by decide
/-- V-I10 -/
theorem test_unmapped_symbol_is_dropped :
    nextHas (step { State.reset with inq := [5], turns := [.host (.pushKey (.other 7))] }) (fun t => t.inq == [5]) = true := by decide
/-- V-D16 -/
theorem test_renderer_resets_dirty :
    nextHas (step { State.reset with fb := ⟨0, 0, 0, 0, 0, [(5, ⟨1, 2, 3⟩)], true⟩, turns := [.host .resetDirty] }) (fun t => !t.fb.dirty && t.fb.grid == [(5, ⟨1, 2, 3⟩)]) = true := by decide
/-- assumption log 21 -/
theorem test_fetch_word_runs_next :
    nextHas (step (({ State.reset with pc := 255, run := false, haltCause := .hlt, turns := [.host .stop] } : State).withFetchWord 16 0x05FE)) (fun t => t.pc == 0xFE && t.run) = true := by decide

/-! ## Memory, loader, assembler -/

theorem test_writing_the_unlisted_byte_removes_the_entry : Memory.write (Memory.write [] 5 7) 5 0 = [] := by decide
theorem test_memory_entries_rise : Memory.write (Memory.write [] 9 1) 5 7 = [(5, 7), (9, 1)] := by decide
/-- R224. -/
theorem test_load_beyond_memory_is_refused :
    (match load [(255, 1), (256, 1)] State.reset with
      | .refused r => r == .loadOutOfRange 256
      | _ => false) = true := by decide
/-- R5. -/
theorem test_construct_refuses_bad_parameters :
    (match construct smallConfig [] with
      | .refused r => r == .badParameters
      | _ => false) = true := by decide
/-- R256: the program byte wins on overlap. -/
theorem test_program_wins_over_constant :
    nextHas (load (buildImage [(0, 9), (100, 7)] [0x08, 0x00]) State.reset)
      (fun t => t.mem.read 0 == 0x08 && t.mem.read 100 == 7) = true := by decide
/-- R255. -/
theorem test_layout_limits :
    layoutDisjoint 100 100 54 = true ∧ layoutDisjoint 102 1 1 = false ∧ layoutDisjoint 2 101 1 = false ∧
    layoutDisjoint 2 1 55 = false := by decide
/-- V-A1's first pair, V-A2, V-A3. -/
theorem test_assemble_pairs :
    assemblePair OpMap.standard ['L', 'O', 'A', 'D'] ['0', 'x', '1', '0'] = some (0x01, 0x10) ∧
    assemblePair OpMap.standard ['L', 'O', 'A', 'D'] ['1', '6'] = some (0x01, 0x10) ∧
    assemblePair OpMap.standard ['S', 'E', 'T', '_', 'X'] ['1', '0'] = some (0x10, 0x0A) := by decide
/-- V-A4, V-A5, and R71's negative, empty and capital-prefix cases. -/
theorem test_malformed_literals_give_0 :
    operandLiteral ['0', 'x', '1', 'G'] = 0 ∧ operandLiteral ['2', '5', '6'] = 0 ∧ operandLiteral ['-', '1'] = 0 ∧
    operandLiteral [] = 0 ∧ operandLiteral ['0', 'X', '1', '0'] = 0 ∧ operandLiteral ['2', '5', '5'] = 255 := by decide
/-- V-A6. -/
theorem test_unknown_mnemonic_aborts :
    (match assemble OpMap.standard [(['L', 'O', 'A', 'D'], ['0', 'x', 'F', 'F']), (['F', 'O', 'O'], ['1'])] with
      | .error e => e == .unknownOpcode ['F', 'O', 'O']
      | .ok _ => false) = true := by decide

/-! ## The compiler's idioms -/

/-- The assignment of scratch cells that P6 of 95_test_vectors.md uses, with the other cell for a difference's right operand. -/
def vectorScratch : Scratch := ⟨254, 254, 255⟩

def nameX : Token := ['x']

/-- `byte x = 10; x = x + 5;` and an added `HLT` (E4, P6). -/
def programP6 : Stmt :=
  .seq (.assign nameX (.literal 10))
    (.seq (.assign nameX (.sum (.named nameX) (.literal 5))) (.given [.hlt 0]))

/-- `if (x == 0) x = 7;` and an added `HLT` (E5, P7). -/
def programP7 : Stmt :=
  .seq (.ifThen ⟨.named nameX, .eq, .literal 0⟩ (.assign nameX (.literal 7))) (.given [.hlt 0])

/-- The listing of P6. -/
theorem test_P6_code :
    compiledCode vectorScratch programP6 =
      some [.load 100, .store 200, .load 200, .store 254, .load 101, .add 254, .store 200, .hlt 0] := by decide
/-- The image of P6: constants first, then the program bytes. -/
theorem test_P6_image :
    compiledImage OpMap.standard vectorScratch programP6 =
      some ([(100, 10), (101, 5)] ++
        placeAt 0 [0x01, 0x64, 0x02, 0xC8, 0x01, 0xC8, 0x02, 0xFE, 0x01, 0x65, 0x03, 0xFE, 0x02, 0xC8, 0x08, 0x00]) := by
  decide
/-- The listing of P7: the skip label stands at 0x0C. -/
theorem test_P7_code :
    compiledCode vectorScratch programP7 =
      some [.load 200, .cmpVal 0, .notAcc 0, .jz 0x0C, .load 100, .store 200, .hlt 0] := by decide
/-- E6e: `byte a = 7; byte b = 7;` has one pool cell; the variables follow each other from 200. -/
theorem test_equal_constants_share_a_cell :
    compiledCode vectorScratch (.seq (.assign ['a'] (.literal 7)) (.assign ['b'] (.literal 7))) =
      some [.load 100, .store 200, .load 100, .store 201] := by decide
/-- R74: `while (x < 3) x = x + 1;`, start label 0, end label behind the `JMP`. -/
theorem test_while_code :
    compiledCode vectorScratch
        (.whileDo ⟨.named nameX, .lt, .literal 3⟩ (.assign nameX (.sum (.named nameX) (.literal 1)))) =
      some [.load 200, .ltVal 3, .jz 0x12, .load 200, .store 254, .load 100, .add 254, .store 200, .jmp 0] := by decide
/-- R76: a literal, a variable and an expression as arguments of one call. -/
theorem test_set_pixel_arguments :
    compiledCode vectorScratch
        (.setPixel (.literal 3) (.named nameX) (.sum (.named nameX) (.literal 9)) (.literal 0) (.literal 0)) =
      some [.setX 3, .load 200, .setYFromAcc 0, .load 200, .store 254, .load 100, .add 254, .setRFromAcc 0, .setG 0,
        .setB 0, .drawPixel 0] := by decide
/-- R76. -/
theorem test_clear_screen_call : compiledCode vectorScratch .clearScreen = some [.clearScreen 0] := by decide
/-- R75: 3 - 5 gives 254 (V-C9's numbers), both operands from the pool. -/
theorem test_difference_keeps_the_operand_order :
    nextHas (execAll (differenceCode [.load 100] [.load 101] 254 255) (testState 0 [(100, 3), (101, 5)]))
      (fun t => t.acc == 254 && t.mem.read 254 == 3 && t.mem.read 255 == 5) = true := by decide
/-- R74, R262: a label at 256 has no code, one at 255 has. -/
theorem test_labels_reach_255 :
    ifIdiom 253 [] [] = some [.jz 255] ∧ ifIdiom 254 [] [] = none ∧ whileIdiom 251 [] [] = some [.jz 255, .jmp 251] ∧
    whileIdiom 252 [] [] = none := by decide
/-- R256: 51 instructions meet the constant pool, and the image is refused. -/
theorem test_long_program_is_refused :
    (compiledImage OpMap.standard vectorScratch (.given (List.replicate 50 (.nop 0)))).isSome = true ∧
    compiledImage OpMap.standard vectorScratch (.given (List.replicate 51 (.nop 0))) = none := by decide

/-! ## Witnesses: for each statement with hypotheses, a concrete case that meets them together -/

/-- The bytes of a 2 by 1 grid, cells and components mixed. -/
def mixedOrder : List (Component × Nat × Nat) :=
  [(.blue, 1, 0), (.red, 0, 0), (.green, 1, 0), (.blue, 0, 0), (.red, 1, 0), (.green, 0, 0)]

theorem witness_DecodingUndoesEncoding : OpMap.standard.wf = true ∧ exchangedMap.wf = true := by decide
theorem witness_EncodingUndoesDecoding :
    exchangedMap.wf = true ∧ decode exchangedMap 0x00 0x7F = .instr (.hlt 0x7F) := by decide
theorem witness_MappedBytesAreTheFourRanges :
    exchangedMap.wf = true ∧
    (∀ b ∈ [0x00, 0x0F, 0x10, 0x1B, 0x20, 0x22, 0x30, 0x33], (exchangedMap.lookup (BitVec.ofNat 8 b)).isSome = true) ∧
    (∀ b ∈ [0x1C, 0x1F, 0x23, 0x2F, 0x34, 0xFF],
      decode exchangedMap (BitVec.ofNat 8 b) 0 = .rejected (.unmappedOpcode (BitVec.ofNat 8 b))) := by decide
theorem witness_DecodeDependsOnTheOpcodeByteAlone :
    decode OpMap.standard 0x1C 0 = .rejected (.unmappedOpcode 0x1C) ∧
    decode OpMap.standard 0x33 0 = .instr (.logPrint 0) := by decide
theorem witness_memory_operand_at_the_last_cell :
    (0xFF : Byte).toNat < State.reset.cfg.memSize ∧ dataAddress 0xFF < State.reset.cfg.memSize := by decide
theorem witness_JumpsWriteTheZeroExtendedTarget :
    (testState 0 []).acc.toNat = 0 ∧ (testState 255 []).acc.toNat ≠ 0 := by decide
theorem witness_AccessOutsideMemoryFaults :
    smallConfig.memSize ≤ (100 : Byte).toNat ∧
    (State.initial { smallConfig with logAddMode := .mem }).cfg.logAddMode = .mem := by decide
theorem witness_RelationIdiomsComputeTheRelation :
    rightSideInMemory State.reset (.literal 5) ∧ rightSideInMemory State.reset (.cell 255) :=
  ⟨trivial, show (255 : Byte).toNat < State.reset.cfg.memSize by decide⟩
theorem witness_SumIdiomAddsThroughScratch :
    (100 : Byte).toNat < State.reset.cfg.memSize ∧ (101 : Byte).toNat < State.reset.cfg.memSize ∧
    (254 : Byte).toNat < State.reset.cfg.memSize ∧ (254 : Byte) ≠ 101 := by decide
theorem witness_DrawPixelWritesOneCellOnlyInBounds_inside :
    ({ State.reset with fb := ⟨63, 63, 1, 2, 3, [], false⟩ } : State).fb.x.toNat < State.reset.cfg.fbW ∧
    ({ State.reset with fb := ⟨63, 63, 1, 2, 3, [], false⟩ } : State).fb.y.toNat < State.reset.cfg.fbH := by decide
theorem witness_DrawPixelWritesOneCellOnlyInBounds_outside :
    State.reset.cfg.fbW ≤ ({ State.reset with fb := ⟨64, 0, 1, 2, 3, [], false⟩ } : State).fb.x.toNat ∧
    State.reset.cfg.fbH ≤ ({ State.reset with fb := ⟨0, 64, 1, 2, 3, [], false⟩ } : State).fb.y.toNat := by decide
theorem witness_SetPixelIdiomDrawsThePixel :
    (63 : Byte).toNat < State.reset.cfg.fbW ∧ (63 : Byte).toNat < State.reset.cfg.fbH := by decide
theorem witness_SetPixelFromCellsDrawsThePixel :
    256 ≤ (testState 0 [(200, 63), (201, 63)]).cfg.memSize ∧
    ((testState 0 [(200, 63), (201, 63)]).mem.read (200 : Byte).toNat).toNat < State.reset.cfg.fbW ∧
    ((testState 0 [(200, 63), (201, 63)]).mem.read (201 : Byte).toNat).toNat < State.reset.cfg.fbH := by decide
theorem witness_DrawPixelIsItsByteWritesInOrder :
    3 < ((⟨63, 63, 1, 2, 3, [], false⟩ : Framebuffer).drawWrites 64 64).length := by decide
theorem witness_ClearIsItsByteWritesInAnyOrder :
    (∀ b ∈ mixedOrder, b.2.1 < 2 ∧ b.2.2 < 1) ∧ Grid.below [(1, ⟨1, 2, 3⟩)] (2 * 1) = true ∧
    (∀ c x y, x < 2 → y < 1 → (c, x, y) ∈ mixedOrder) ∧ 6 < (clearWrites mixedOrder).length := by
  refine ⟨by decide, by decide, fun c x y hx hy => ?_, by decide⟩
  obtain rfl : y = 0 := by omega
  cases c <;> interval_cases x <;> simp [mixedOrder]
theorem witness_queue_empty_and_not :
    State.reset.inq = [] ∧ ({ State.reset with inq := [0x41, 0x42] } : State).inq = 0x41 :: [0x42] := by decide
theorem witness_KeysComeOutInOrder :
    (({ State.reset with inq := [1] } : State).inq ++ [2, 3])[2]? = some 3 := by decide
theorem witness_AvailableKeyStaysUntilTaken :
    nextHas (exec (.keyAvailable 0) { State.reset with inq := [0x00] }) (fun t => t.acc == 1) = true := by decide
theorem witness_LogAddWrapsInBothModes :
    State.reset.cfg.logAddMode = .imm ∧
    (State.initial { standardConfig with logAddMode := .mem }).cfg.logAddMode = .mem ∧
    (255 : Byte).toNat < (State.initial { standardConfig with logAddMode := .mem }).cfg.memSize := by decide
theorem witness_instruction_answers_next :
    exec (.nop 0) State.reset = .next State.reset ∧
    exec (.hlt 0) State.reset = .next { State.reset with run := false, haltCause := .hlt } ∧
    (exec (.clearScreen 0) State.reset =
      .next { State.reset with fb := { State.reset.fb with grid := [], dirty := true } }) := ⟨rfl, rfl, rfl⟩
theorem witness_StepRunsTheDecodedInstruction :
    (State.reset.engineToMove ∧ State.reset.run = true ∧ State.reset.pc.toNat + 1 < State.reset.cfg.memSize ∧
      decode State.reset.cfg.opmap (State.reset.mem.read 0) (State.reset.mem.read 1) = .instr (.nop 0)) ∧
    (({ State.reset with pc := 254, turns := [.engine] } : State).engineToMove ∧
      ({ State.reset with pc := 254, turns := [.engine] } : State).pc.toNat + 1 < State.reset.cfg.memSize) := by decide
theorem witness_UnmappedOpcodeReportsAndHalts :
    ({ testState 0 [(254, 0xFF)] with pc := 254 } : State).engineToMove ∧
    ({ testState 0 [(254, 0xFF)] with pc := 254 } : State).pc.toNat + 1 < State.reset.cfg.memSize ∧
    decode OpMap.standard ((testState 0 [(254, 0xFF)]).mem.read 254) ((testState 0 [(254, 0xFF)]).mem.read 255) =
      .rejected (.unmappedOpcode 0xFF) := by decide
theorem witness_EndOfMemoryHaltsQuietly :
    ({ State.reset with pc := 255 } : State).engineToMove ∧ ({ State.reset with pc := 255 } : State).run = true ∧
    State.reset.cfg.memSize ≤ ({ State.reset with pc := 255 } : State).pc.toNat + 1 := by decide
theorem witness_StoreIsSeenByTheNextFetch :
    nextHas (exec (.store 2) { testState 8 [] with pc := 2 }) (fun t => decide (t.pc.toNat + 1 < t.cfg.memSize)) = true ∧
    nextHas (exec (.store 3) { testState 8 [] with pc := 2 }) (fun t => decide (t.pc.toNat + 1 < t.cfg.memSize)) = true := by
  decide
theorem witness_EngineStopsInOnlyFourWays :
    nextHas (step { State.reset with turns := [.host .stop] }) (fun t => !t.run) = true ∧
    nextHas (step { State.reset with pc := 255 }) (fun t => !t.run) = true ∧
    nextHas (step (testState 0 [(0, 0xFF)])) (fun t => !t.run) = true ∧
    nextHas (step (testState 0 [(0, 0x08)])) (fun t => !t.run) = true := by decide
theorem witness_HaltedIsTerminal :
    ({ State.reset with run := false, haltCause := .hlt, turns := [.host (.pushCode 5)] } : State).run = false := by decide
theorem witness_LegalMachineNeverStopsAbnormally : 256 ≤ State.reset.cfg.memSize := by decide
theorem witness_StepsAppendToOutAndKeepParameters :
    nextHas (step { testState 0 [(0, 0x33)] with log := 7 })
      (fun t => t.out == [.trace 0 0x33 0, .logPrint 7]) = true := by decide
theorem witness_ComputationIgnoresWhatNoInstructionReads :
    SameComputation State.reset
      { State.reset with
        out := [.logPrint 1]
        fb := ⟨1, 2, 3, 4, 5, [(0, ⟨1, 1, 1⟩)], true⟩
        cfg := { standardConfig with fbW := 8, fbH := 8, tick := 9 } } ∧
    nextHas (step State.reset) (fun t => t.pc == 2) = true := by decide
theorem witness_HostMovesDoOnlyTheirOwn :
    (∀ m ∈ [HostMove.pushCode 0x41, .pushKey (.named .space), .pushKey (.other 0), .resetDirty, .stop],
      ({ State.reset with turns := [.host m] } : State).turns = .host m :: []) ∧
    State.reset.run = true ∧
    ({ State.reset with run := false, turns := [.host .stop] } : State).run = false := by decide
theorem witness_LoaderWritesTheImageOrRefuses :
    (∀ c ∈ [((0 : Nat), (0x08 : Byte)), (255, 1), (0, 0x05)], c.1 < State.reset.cfg.memSize) ∧
    (∃ c ∈ [((0 : Nat), (0x08 : Byte)), (256, 1)], State.reset.cfg.memSize ≤ c.1) := by decide
theorem witness_assembler_answers_bytes :
    (match assemble OpMap.standard [(mnemonicName .LOG_PRINT, ['0']), (mnemonicName .HLT, ['0'])] with
      | .ok bytes => bytes == [0x33, 0x00, 0x08, 0x00]
      | .error _ => false) = true := by decide
theorem witness_ConstructedMachineSatisfiesTheInvariant :
    nextHas (construct standardConfig [(0, 0x08), (255, 7)]) (fun t => t.mem == [(0, 0x08), (255, 7)]) = true := by decide
theorem witness_SumAndDifferenceCombineTheirOperands :
    (254 : Byte).toNat < State.reset.cfg.memSize ∧ (255 : Byte).toNat < State.reset.cfg.memSize ∧ (254 : Byte) ≠ 255 ∧
    execAll [.load 100] (testState 0 [(100, 3), (101, 5)]) = .next (testState 3 [(100, 3), (101, 5)]) ∧
    execAll [.load 101]
        { testState 3 [(100, 3), (101, 5)] with mem := (testState 3 [(100, 3), (101, 5)]).mem.write (254 : Byte).toNat 3 } =
      .next (testState 5 [(100, 3), (101, 5), (254, 3)]) := ⟨by decide, by decide, by decide, rfl, rfl⟩
theorem witness_layout_ready :
    (⟨[5], [nameX]⟩ : Layout).Ready vectorScratch (testState 0 [(100, 5), (200, 9)]) :=
  ⟨by decide, by decide, by decide, by decide⟩
theorem witness_ExpressionIdiomComputesItsValue :
    let e := Expr.difference (.sum (.named nameX) (.literal 5)) (.named nameX)
    e.rightsAreLeaves = true ∧ (∀ v ∈ e.literals, v ∈ [(5 : Byte)]) ∧ ∀ x ∈ e.names, x ∈ [nameX] := by decide
theorem witness_SetPixelCallDrawsItsArguments :
    let L : Layout := ⟨[5], [nameX]⟩
    let e := Expr.sum (.named nameX) (.literal 5)
    (∀ a ∈ [Expr.literal 63, .named nameX, e, .literal 64, .literal 0],
      a.rightsAreLeaves = true ∧ (∀ v ∈ a.argumentLiterals, v ∈ L.constants) ∧ ∀ n ∈ a.names, n ∈ L.names) ∧
    ((Expr.literal 63).value (L.valueOf (testState 0 [(100, 5), (200, 9)]))).toNat < State.reset.cfg.fbW ∧
    (e.value (L.valueOf (testState 0 [(100, 5), (200, 9)]))).toNat < State.reset.cfg.fbH ∧
    State.reset.cfg.fbW ≤ ((Expr.literal 64).value (L.valueOf (testState 0 [(100, 5), (200, 9)]))).toNat := by decide
theorem witness_ControlIdiomsJumpByTheCondition :
    ({ testState 0 [(2, 0x06), (3, 6)] with pc := 2 } : State).engineToMove ∧
    256 ≤ State.reset.cfg.memSize ∧
    ifIdiom 0 [.nop 0] [.nop 0] = some [.nop 0, .jz 6, .nop 0] ∧
    codeAt OpMap.standard [(2, 0x06), (3, 6)] 0 [.nop 0, .jz 6, .nop 0] = true ∧
    ({ testState 0 [(2, 0x06), (3, 6)] with pc := 2 } : State).pc.toNat = 0 + codeBytes [.nop 0] ∧
    whileIdiom 0 [.nop 0] [.nop 0] = some [.nop 0, .jz 8, .nop 0, .jmp 0] ∧
    codeAt OpMap.standard [(2, 0x06), (3, 8), (6, 0x05)] 0 [.nop 0, .jz 8, .nop 0, .jmp 0] = true ∧
    ({ testState 1 [(2, 0x06), (3, 8), (6, 0x05)] with pc := 6 } : State).pc.toNat =
      0 + codeBytes [.nop 0] + 2 + codeBytes [.nop 0] := by decide
theorem witness_StraightLineCodeRunsAsItsInstructions :
    codeAt OpMap.standard [(252, 0x01), (253, 0x05), (254, 0x02), (255, 0x06)] 252 [.load 5, .store 6] = true ∧
    252 + codeBytes [.load 5, .store 6] ≤ State.reset.cfg.memSize ∧ State.reset.cfg.memSize ≤ 65536 ∧
    (∀ i ∈ [Instr.load 5, .store 6], runsStraight i = true) ∧ (6 : Byte).toNat < 252 ∧
    nextHas (execAll [.load 5, .store 6] { testState 0 [(252, 0x01), (253, 0x05), (254, 0x02), (255, 0x06)] with pc := 252 })
      (fun t => t.pc == 252) = true := by decide
theorem witness_CompiledImageHoldsCodeAndConstants :
    OpMap.standard.wf = true ∧ 256 ≤ State.reset.cfg.memSize ∧
    (compiledImage OpMap.standard vectorScratch programP7).isSome = true ∧ (7 : Byte) ∈ programP7.literals ∧
    nameX ∈ programP7.names := by decide
theorem witness_EveryStepKeepsTheInvariant :
    State.reset.Inv ∧ nextHas (step State.reset) (fun t => t.pc == 2) = true :=
  ⟨⟨by decide, by decide, by decide, by decide, by decide, by decide, by decide⟩, by decide⟩

end Sys2Proof.Machine
end

section
/-! PROOFS. The invariant of 00_scope.md R5, 10_state.md R11, R14, R18 and 20_memory.md R40, kept by every step: one rule for
each operation over the state, then the instructions, the engine and the host. -/

namespace Sys2Proof.Machine

variable {s t : State}

/-! ### What an outcome may answer -/

/-- Whatever next state the outcome answers satisfies `p`; a fault or a refusal answers none. -/
def NextOnly (p : State → Prop) (o : Host.Outcome State Fault Refusal) : Prop := ∀ t, o = .next t → p t

theorem NextOnly.next {p : State → Prop} (h : p s) : NextOnly p (.next s) :=
  fun _ ht => Host.Outcome.next.inj ht ▸ h

theorem NextOnly.withData {p : State → Prop} {opnd : Byte} {k : Byte → State} (h : ∀ v, p (k v)) :
    NextOnly p (withData opnd s k) := by
  intro t ht
  obtain ⟨-, rfl⟩ := withData_next ht
  exact h _

theorem NextOnly.writeData {p : State → Prop} {opnd v : Byte}
    (h : opnd.toNat < s.cfg.memSize → p (s.setMem (s.mem.write opnd.toNat v))) :
    NextOnly p (finish (writeData opnd v s)) := by
  intro t ht
  obtain ⟨hb, rfl⟩ := finish_writeData_next ht
  exact h hb

/-! ### The invariant under each operation -/

namespace State.Inv

theorem setAcc (h : s.Inv) (v : Byte) : (s.setAcc v).Inv := { h with }

theorem setLog (h : s.Inv) (v : Byte) : (s.setLog v).Inv := { h with }

theorem setInq (h : s.Inv) (q : List Byte) : (s.setInq q).Inv := { h with }

theorem setTurns (h : s.Inv) (ts : List Turn) : (s.setTurns ts).Inv := { h with }

theorem emit (h : s.Inv) (e : Event) : (s.emit e).Inv := { h with }

theorem setPc (h : s.Inv) {a : Addr} (ha : a.toNat ≤ s.cfg.memSize) : (s.setPc a).Inv := { h with pc_inside := ha }

theorem writeMem (h : s.Inv) {a : Nat} (ha : a < s.cfg.memSize) (v : Byte) : (s.setMem (s.mem.write a v)).Inv :=
  { h with
    mem_canonical := Memory.write_wf h.mem_canonical a v
    mem_inside := Memory.write_below h.mem_inside ha v }

/-- A framebuffer change keeps the invariant when the new grid is canonical and inside its size. -/
theorem setFb (h : s.Inv) {fb : Framebuffer} (hwf : Grid.wf fb.grid = true)
    (hin : Grid.below fb.grid (s.cfg.fbW * s.cfg.fbH) = true) : (s.setFb fb).Inv :=
  { h with grid_canonical := hwf, grid_inside := hin }

theorem setFbReg (h : s.Inv) (reg : FbReg) (v : Byte) : (s.setFbReg reg v).Inv :=
  h.setFb (by simpa using h.grid_canonical) (by simpa using h.grid_inside)

theorem drawPixel (h : s.Inv) : (s.setFb (s.fb.drawPixel s.cfg.fbW s.cfg.fbH)).Inv :=
  h.setFb (Framebuffer.drawPixel_grid_wf h.grid_canonical) (Framebuffer.drawPixel_grid_below h.grid_inside)

/-- Stopping keeps RUN and HALT_CAUSE in step, provided that a cause is recorded (10_state.md R14). -/
theorem halt (h : s.Inv) {c : HaltCause} (hc : c ≠ .none) : (s.halt c).Inv :=
  { h with run_iff_no_cause := by simpa using hc }

theorem memSize_ge (h : s.Inv) : 256 ≤ s.cfg.memSize := by
  have hwf := h.cfg_wf
  simp only [Config.wf, Config.memSizeOk, Bool.and_eq_true, decide_eq_true_eq] at hwf
  omega

/-- Every jump target is below 256 and therefore inside a legal memory (41_control.md R120). -/
theorem jump (h : s.Inv) (target : Byte) : (s.setPc (jumpTarget target)).Inv :=
  h.setPc (by
    have := h.memSize_ge
    rw [jumpTarget_toNat]
    omega)

/-- The advance past two bytes that lie inside memory ends at most at its end. -/
theorem advance (h : s.Inv) (hpc : s.pc.toNat + 1 < s.cfg.memSize) : (s.setPc (advancedPc s.pc)).Inv :=
  h.setPc (by
    rw [advancedPc_toNat]
    omega)

end State.Inv

/-! ### Instructions, engine and host -/

/-- Every instruction keeps the invariant, whatever fetch led to it. -/
theorem exec_keeps_inv (h : s.Inv) (i : Instr) : NextOnly State.Inv (exec i s) :=
  match i with
  | .nop _ => .next h
  | .load _ | .add _ | .sub _ | .cmp _ | .gt _ | .lt _ => .withData fun _ => h.setAcc _
  | .store _ => .writeData fun hb => h.writeMem hb _
  | .jmp _ => .next (h.jump _)
  | .jz _ => .next (by split; exacts [h.jump _, h])
  | .jnz _ => .next (by split; exacts [h, h.jump _])
  | .hlt _ => .next (h.halt (by decide))
  | .cmpVal _ | .gtVal _ | .ltVal _ | .notAcc _ => .next (h.setAcc _)
  | .setX _ | .setY _ | .setR _ | .setG _ | .setB _ => .next (h.setFbReg _ _)
  | .setXFromAcc _ | .setYFromAcc _ | .setRFromAcc _ | .setGFromAcc _ | .setBFromAcc _ => .next (h.setFbReg _ _)
  | .drawPixel _ => .next h.drawPixel
  | .clearScreen _ => .next (h.setFb rfl rfl)
  | .keyAvailable _ | .peekKey _ | .logLoad _ => .next (h.setAcc _)
  | .getKey _ => .next ((h.setAcc _).setInq _)
  | .logAdd _ => by
    simp only [exec, execLogAdd]
    split
    · exact .next (h.setLog _)
    · exact .withData fun _ => h.setLog _
  | .logStore _ => .next (h.setLog _)
  | .logPrint _ => .next (h.emit _)

theorem engineStep_keeps_inv (h : s.Inv) : NextOnly State.Inv (engineStep s) := by
  intro t ht
  obtain ⟨-, rfl⟩ | ⟨-, -, rfl⟩ | ⟨-, hpc, ⟨why, -, rfl⟩ | ⟨i, -, hexec⟩⟩ := engineStep_next ht
  · exact h
  · exact h.halt (by decide)
  · exact ((h.advance hpc).emit _).halt (by decide)
  · exact exec_keeps_inv ((h.advance hpc).emit _) i t hexec

theorem hostMove_keeps_inv (h : s.Inv) (m : HostMove) : (hostMove m s).Inv := by
  cases m with
  | pushCode c => exact h.setInq _
  | pushKey k => exact h.setInq _
  | resetDirty => exact h.setFb h.grid_canonical h.grid_inside
  | stop =>
    simp only [hostMove, hostStop]
    split
    · exact h.halt (by decide)
    · exact h

theorem step_keeps_inv (h : s.Inv) : NextOnly State.Inv (step s) := by
  obtain ⟨m, rest, -, hm⟩ | ⟨-, he⟩ := step_eq s
  · rw [hm]
    exact .next (hostMove_keeps_inv (h.setTurns rest) m)
  · rw [he]
    exact engineStep_keeps_inv (h.setTurns _)

/-- Settles O53: the host's moves and the engine's step are made of operations that each keep the invariant. -/
theorem everyStepKeepsTheInvariant : Obligations.EveryStepKeepsTheInvariant :=
  fun _ t h ht => step_keeps_inv h t ht

end Sys2Proof.Machine
end

section
/-! PROOFS. Who writes which part of the state (10_state.md R10 to R24): what an instruction can do is said once, as the
relation `Effect`, and the lists of writers are read off it; and the state after reset (10_state.md R25). -/

namespace Sys2Proof.Machine

variable {s t : State} {i : Instr}

/-! ### The effect of an instruction -/

/-- The instructions that write ACC (10_state.md R10). -/
def accWriters : List Mnemonic :=
  [.LOAD, .ADD, .SUB, .CMP, .CMP_VAL, .GT, .GT_VAL, .LT, .LT_VAL, .NOT, .KEY_AVAILABLE, .GET_KEY, .PEEK_KEY, .LOG_LOAD]

/-- The instructions that write a framebuffer register (10_state.md R17). -/
def FbReg.writers : FbReg → List Mnemonic
  | .x => [.SET_X, .SET_X_FROM_ACC]
  | .y => [.SET_Y, .SET_Y_FROM_ACC]
  | .r => [.SET_R, .SET_R_FROM_ACC]
  | .g => [.SET_G, .SET_G_FROM_ACC]
  | .b => [.SET_B, .SET_B_FROM_ACC]

/-- The states an instruction of mnemonic `k` may leave `s` in: each operation over the state, and who may perform it. -/
inductive Effect (s : State) (k : Mnemonic) : State → Prop
  | keep : Effect s k s
  | setAcc (v : Byte) (hk : k ∈ accWriters) : Effect s k (s.setAcc v)
  | takeKey (hk : k = .GET_KEY) : Effect s k ((s.setAcc (popKey s.inq)).setInq (popRest s.inq))
  | setMem (m : Memory) (hk : k = .STORE) : Effect s k (s.setMem m)
  | setPc (a : Addr) (hk : k ∈ [Mnemonic.JMP, .JZ, .JNZ]) : Effect s k (s.setPc a)
  | halt (hk : k = .HLT) : Effect s k (s.halt .hlt)
  | setFbReg (reg : FbReg) (v : Byte) (hk : k ∈ reg.writers) : Effect s k (s.setFbReg reg v)
  | drawPixel (hk : k = .DRAW_PIXEL) : Effect s k (s.setFb (s.fb.drawPixel s.cfg.fbW s.cfg.fbH))
  | clearScreen (hk : k = .CLEAR_SCREEN) : Effect s k (s.setFb s.fb.clear)
  | setLog (v : Byte) (hk : k ∈ [Mnemonic.LOG_ADD, .LOG_STORE]) : Effect s k (s.setLog v)
  | print (hk : k = .LOG_PRINT) : Effect s k (s.emit (.logPrint s.log))

/-- Every instruction has one of the effects, under a mnemonic that the effect allows. -/
theorem exec_nextOnly_effect (i : Instr) (s : State) : NextOnly (Effect s i.mnemonic) (exec i s) :=
  match i with
  | .nop _ => .next .keep
  | .load _ | .add _ | .sub _ | .cmp _ | .gt _ | .lt _ => .withData fun v => .setAcc _ (of_decide_eq_true rfl)
  | .store _ => .writeData fun _ => .setMem _ rfl
  | .jmp _ => .next (.setPc _ (of_decide_eq_true rfl))
  | .jz _ => .next (by split; exacts [.setPc _ (of_decide_eq_true rfl), .keep])
  | .jnz _ => .next (by split; exacts [.keep, .setPc _ (of_decide_eq_true rfl)])
  | .hlt _ => .next (.halt rfl)
  | .cmpVal _ | .gtVal _ | .ltVal _ | .notAcc _ => .next (.setAcc _ (of_decide_eq_true rfl))
  | .setX _ | .setY _ | .setR _ | .setG _ | .setB _ => .next (.setFbReg _ _ (of_decide_eq_true rfl))
  | .setXFromAcc _ | .setYFromAcc _ | .setRFromAcc _ | .setGFromAcc _ | .setBFromAcc _ =>
    .next (.setFbReg _ _ (of_decide_eq_true rfl))
  | .drawPixel _ => .next (.drawPixel rfl)
  | .clearScreen _ => .next (.clearScreen rfl)
  | .keyAvailable _ | .peekKey _ | .logLoad _ => .next (.setAcc _ (of_decide_eq_true rfl))
  | .getKey _ => .next (.takeKey rfl)
  | .logAdd _ => by
    simp only [exec, execLogAdd]
    split
    · exact .next (.setLog _ (of_decide_eq_true rfl))
    · exact .withData fun _ => .setLog _ (of_decide_eq_true rfl)
  | .logStore _ => .next (.setLog _ (of_decide_eq_true rfl))
  | .logPrint _ => .next (.print rfl)

/-- Everything an instruction that answers a next state can have done. -/
theorem exec_next_effect (h : exec i s = .next t) : Effect s i.mnemonic t := exec_nextOnly_effect i s t h

/-! ### The writers of each part of the state -/

/-- Settles O32: only `STORE` has an effect on memory, only `LOG_PRINT` on OUT, and none on parameters or schedule. -/
theorem onlyStoreWritesMemoryOnlyLogPrintReports : Obligations.OnlyStoreWritesMemoryOnlyLogPrintReports := by
  intro i s t h
  cases exec_next_effect h with
  | setMem m hk => exact ⟨rfl, rfl, fun hn => absurd hk hn, fun _ => rfl⟩
  | print hk => exact ⟨rfl, rfl, fun _ => ⟨rfl, fun _ => rfl⟩, fun hn => absurd hk hn⟩
  | _ => exact ⟨rfl, rfl, fun _ => ⟨rfl, fun _ => rfl⟩, fun _ => rfl⟩

/-- Settles O33: the effects on ACC and on LOG belong to the listed writers. -/
theorem accAndLogHaveOnlyTheirWriters : Obligations.AccAndLogHaveOnlyTheirWriters := by
  intro i s t h
  cases exec_next_effect h with
  | setAcc v hk => exact ⟨fun hn => absurd hk hn, fun _ => rfl⟩
  | takeKey hk => exact ⟨fun hn => absurd (by simp [hk]) hn, fun _ => rfl⟩
  | setLog v hk => exact ⟨fun _ => rfl, fun hn => absurd hk hn⟩
  | _ => exact ⟨fun _ => rfl, fun _ => rfl⟩

/-- Settles O34: the one effect on PC is a jump's, the one effect on RUN and its cause is `HLT`'s. -/
theorem pcAndRunHaveOnlyTheirWriters : Obligations.PcAndRunHaveOnlyTheirWriters := by
  intro i s t h
  cases exec_next_effect h with
  | setPc a hk => exact ⟨fun hn => absurd hk hn, fun _ => ⟨rfl, rfl⟩⟩
  | halt hk => exact ⟨fun _ => rfl, fun hn => absurd hk hn⟩
  | _ => exact ⟨fun _ => rfl, fun _ => ⟨rfl, rfl⟩⟩

/-- `set_reg` leaves the registers it does not name (43_display.md R151). -/
theorem Framebuffer.setReg_frame (fb : Framebuffer) (reg : FbReg) (v : Byte) :
    (reg ≠ .x → (fb.setReg reg v).x = fb.x) ∧ (reg ≠ .y → (fb.setReg reg v).y = fb.y) ∧
      (reg ≠ .r → (fb.setReg reg v).r = fb.r) ∧ (reg ≠ .g → (fb.setReg reg v).g = fb.g) ∧
      (reg ≠ .b → (fb.setReg reg v).b = fb.b) := by
  cases reg <;> simp [Framebuffer.setReg]

/-- `draw_pixel` never clears the dirty flag (43_display.md R152). -/
theorem Framebuffer.drawPixel_dirty {fb : Framebuffer} (w h : Nat) (hd : fb.dirty = true) :
    (fb.drawPixel w h).dirty = true := by
  by_cases hb : fb.x.toNat < w ∧ fb.y.toNat < h
  · rw [Framebuffer.drawPixel_inside hb]
  · rwa [Framebuffer.drawPixel_outside hb]

/-- Settles O35: each effect on the device or the queue belongs to its own instructions, and none clears the flag. -/
theorem deviceStateHasOnlyItsWriters : Obligations.DeviceStateHasOnlyItsWriters := by
  intro i s t h
  cases exec_next_effect h with
  | takeKey hk =>
    exact ⟨fun _ => rfl, fun _ => rfl, fun _ => rfl, fun _ => rfl, fun _ => rfl, fun _ => ⟨rfl, rfl⟩, id,
      fun hn => absurd hk hn⟩
  | setFbReg reg v hk =>
    have other {named : FbReg} (hn : i.mnemonic ∉ named.writers) : reg ≠ named := fun e => hn (e ▸ hk)
    obtain ⟨hx, hy, hr, hg, hb⟩ := s.fb.setReg_frame reg v
    exact ⟨fun hn => hx (other hn), fun hn => hy (other hn), fun hn => hr (other hn), fun hn => hg (other hn),
      fun hn => hb (other hn), fun _ => ⟨s.fb.setReg_grid reg v, s.fb.setReg_dirty reg v⟩,
      fun hd => (s.fb.setReg_dirty reg v).trans hd, fun _ => rfl⟩
  | drawPixel hk =>
    obtain ⟨hx, hy, hr, hg, hb⟩ := s.fb.drawPixel_regs (w := s.cfg.fbW) (h := s.cfg.fbH)
    exact ⟨fun _ => hx, fun _ => hy, fun _ => hr, fun _ => hg, fun _ => hb, fun hn => absurd (by simp [hk]) hn,
      Framebuffer.drawPixel_dirty _ _, fun _ => rfl⟩
  | clearScreen hk =>
    exact ⟨fun _ => rfl, fun _ => rfl, fun _ => rfl, fun _ => rfl, fun _ => rfl, fun hn => absurd (by simp [hk]) hn,
      fun _ => rfl, fun _ => rfl⟩
  | _ =>
    exact ⟨fun _ => rfl, fun _ => rfl, fun _ => rfl, fun _ => rfl, fun _ => rfl, fun _ => ⟨rfl, rfl⟩, id, fun _ => rfl⟩

/-! ### OUT and the parameters under a step -/

/-- The step from `s` to `t` appends at most `n` events to OUT and keeps the parameters (10_state.md R22, 00_scope.md R5). -/
def AppendsAtMost (n : Nat) (s t : State) : Prop := t.cfg = s.cfg ∧ ∃ es, t.out = s.out ++ es ∧ es.length ≤ n

theorem AppendsAtMost.of_same {n : Nat} (hcfg : t.cfg = s.cfg) (hout : t.out = s.out) : AppendsAtMost n s t :=
  ⟨hcfg, [], by simp [hout]⟩

/-- An instruction reports at most one event. -/
theorem exec_appendsAtMost (h : exec i s = .next t) : AppendsAtMost 1 s t := by
  cases exec_next_effect h with
  | print hk => exact ⟨rfl, [.logPrint s.log], rfl, Nat.le_refl 1⟩
  | _ => exact .of_same rfl rfl

/-- An engine step reports its trace, or the unmapped opcode, and at most one event of the instruction. -/
theorem engineStep_appendsAtMost (h : engineStep s = .next t) : AppendsAtMost 2 s t := by
  obtain ⟨-, rfl⟩ | ⟨-, -, rfl⟩ | ⟨-, -, ⟨why, -, rfl⟩ | ⟨i, -, hexec⟩⟩ := engineStep_next h
  · exact .of_same rfl rfl
  · exact .of_same rfl rfl
  · exact ⟨rfl, [.unmappedOpcode s.pc _], rfl, Nat.le_succ 1⟩
  · obtain ⟨hcfg, es, hout, hlen⟩ := exec_appendsAtMost hexec
    exact ⟨hcfg, .trace s.pc _ _ :: es, hout.trans (List.append_assoc ..), Nat.succ_le_succ hlen⟩

/-- Settles O43: a host move leaves OUT and parameters, an engine step appends at most two events. -/
theorem stepsAppendToOutAndKeepParameters : Obligations.StepsAppendToOutAndKeepParameters := by
  intro s t h
  obtain ⟨m, rest, -, hm⟩ | ⟨-, he⟩ := step_eq s
  · obtain rfl := Host.Outcome.next.inj (hm.symm.trans h)
    obtain ⟨hcfg, -, -, -, -, -, hout, -⟩ := hostMove_frame m (s.setTurns rest)
    exact AppendsAtMost.of_same hcfg hout
  · exact engineStep_appendsAtMost (s := s.setTurns s.turns.tail) (he.symm.trans h)

/-! ### Reset -/

/-- An empty grid shows black everywhere, out of range included (43_display.md R154). -/
theorem Framebuffer.getPixel_of_grid_nil {fb : Framebuffer} (h : fb.grid = []) (w h' x y : Nat) :
    fb.getPixel w h' x y = Pixel.black := by
  simp [Framebuffer.getPixel, h, sparseRead]

/-- Settles O50: the table's rows are the fields of `State.initial`, with no cell listed in memory or grid. -/
theorem resetStateIsTheTable : Obligations.ResetStateIsTheTable :=
  ⟨rfl, rfl, rfl, rfl, rfl, rfl, rfl, rfl, rfl, rfl, Framebuffer.getPixel_of_grid_nil rfl _ _, rfl, rfl, fun _ => rfl, rfl⟩

/-- A machine constructed with legal parameters satisfies the invariant before anything is loaded. -/
theorem State.initial_inv {cfg : Config} (h : cfg.wf = true) : (State.initial cfg).Inv where
  cfg_wf := h
  mem_canonical := rfl
  mem_inside := rfl
  grid_canonical := rfl
  grid_inside := rfl
  run_iff_no_cause := iff_of_true rfl rfl
  pc_inside := Nat.zero_le _

/-- Settles O51: the standard parameters are legal. -/
theorem resetSatisfiesTheInvariant : Obligations.ResetSatisfiesTheInvariant := State.initial_inv (by decide)

end Sys2Proof.Machine
end

section
/-! PROOFS. What no instruction reads has no influence (10_state.md R14, R17 to R19, R22, 20_memory.md R55): replacing it
commutes with every operation over the state, and so with every instruction and every step. -/

namespace Sys2Proof.Machine

variable {s t u : State}

/-! ### What no instruction reads -/

/-- The part of the state that no instruction reads: grid size, tick, halt cause, framebuffer and OUT. -/
structure Unread where
  fbW : Nat
  fbH : Nat
  tick : Nat
  haltCause : HaltCause
  fb : Framebuffer
  out : List Event

/-- The unread part of a state. -/
def State.unread (s : State) : Unread := ⟨s.cfg.fbW, s.cfg.fbH, s.cfg.tick, s.haltCause, s.fb, s.out⟩

/-- The state with its unread part replaced. -/
def State.withUnread (x : Unread) (s : State) : State :=
  { s with
    cfg := { s.cfg with fbW := x.fbW, fbH := x.fbH, tick := x.tick }
    haltCause := x.haltCause
    fb := x.fb
    out := x.out }

variable {x : Unread}

@[simp] theorem State.withUnread_memSize : (s.withUnread x).cfg.memSize = s.cfg.memSize := rfl
@[simp] theorem State.withUnread_opmap : (s.withUnread x).cfg.opmap = s.cfg.opmap := rfl
@[simp] theorem State.withUnread_pc : (s.withUnread x).pc = s.pc := rfl
@[simp] theorem State.withUnread_run : (s.withUnread x).run = s.run := rfl
@[simp] theorem State.withUnread_mem : (s.withUnread x).mem = s.mem := rfl

theorem sameComputation_withUnread (s : State) (x : Unread) : SameComputation s (s.withUnread x) :=
  ⟨rfl, rfl, rfl, rfl, rfl, rfl, rfl, rfl, rfl, rfl⟩

/-- Two states that agree on everything read differ in their unread parts alone. -/
theorem SameComputation.eq_withUnread (h : SameComputation s u) : u = s.withUnread u.unread := by
  obtain ⟨⟨_, _, _, _, _, _⟩, _, _, _, _, _, _, _, _, _, _⟩ := s
  obtain ⟨⟨_, _, _, _, _, _⟩, _, _, _, _, _, _, _, _, _, _⟩ := u
  obtain ⟨rfl, rfl, rfl, rfl, rfl, rfl, rfl, rfl, rfl, rfl⟩ := h
  rfl

/-! ### Instructions -/

/-- `f` answers from `s` with any other unread part what it answers from `s`, the unread part aside. -/
def IgnoresUnread (f : State → Host.Outcome State Fault Refusal) (s : State) : Prop :=
  ∀ x, NextOnly (fun t => ∃ y, f (s.withUnread x) = .next (t.withUnread y)) (f s)

/-- An operation that never fails ignores the unread part when it commutes with replacing it. -/
theorem IgnoresUnread.next {k : State → State} (hk : ∀ x, ∃ y, k (s.withUnread x) = (k s).withUnread y) :
    IgnoresUnread (fun s => .next (k s)) s :=
  fun x => .next ((hk x).imp fun _ => congrArg _)

/-- A data operand is read alike, so what follows decides. -/
theorem IgnoresUnread.withData {opnd : Byte} {k : State → Byte → State}
    (hk : ∀ x v, k (s.withUnread x) v = (k s v).withUnread x) : IgnoresUnread (fun s => withData opnd s (k s)) s := by
  intro x t ht
  obtain ⟨hb, rfl⟩ := withData_next ht
  exact ⟨x, (withData_ok (s := s.withUnread x) hb).trans (congrArg _ (hk x _))⟩

/-- A store inside memory changes memory alone. -/
theorem finish_writeData_ok {opnd v : Byte} (h : opnd.toNat < s.cfg.memSize) :
    finish (writeData opnd v s) = .next (s.setMem (s.mem.write opnd.toNat v)) := by
  simp [writeData, memWrite_eq, h, finish]

theorem execStore_ignoresUnread (addr : Byte) (s : State) : IgnoresUnread (execStore addr) s := by
  intro x t ht
  obtain ⟨hb, rfl⟩ := finish_writeData_next ht
  exact ⟨x, finish_writeData_ok (s := s.withUnread x) hb⟩

theorem execLogAdd_imm (opnd : Byte) (h : s.cfg.logAddMode = .imm) :
    execLogAdd opnd s = .next (s.setLog (s.log + opnd)) := by
  simp [execLogAdd, h]

theorem execLogAdd_mem (opnd : Byte) (h : s.cfg.logAddMode = .mem) :
    execLogAdd opnd s = withData opnd s (fun v => s.setLog (s.log + v)) := by
  simp [execLogAdd, h]

theorem execLogAdd_ignoresUnread (opnd : Byte) (s : State) : IgnoresUnread (execLogAdd opnd) s := by
  intro x
  cases hm : s.cfg.logAddMode with
  | imm =>
    rw [execLogAdd_imm opnd hm, execLogAdd_imm opnd (s := s.withUnread x) hm]
    exact .next ⟨x, rfl⟩
  | mem =>
    rw [execLogAdd_mem opnd hm, execLogAdd_mem opnd (s := s.withUnread x) hm]
    exact IgnoresUnread.withData (k := fun s v => s.setLog (s.log + v)) (fun _ _ => rfl) x

/-- A device register write falls on the unread part. -/
theorem setFbReg_withUnread (s : State) (x : Unread) (reg : FbReg) (v : Byte) :
    (s.withUnread x).setFbReg reg v = (s.setFbReg reg v).withUnread { x with fb := x.fb.setReg reg v } := rfl

/-- Every instruction ignores the unread part; HLT, the display instructions and LOG_PRINT write to it. -/
theorem exec_ignoresUnread (i : Instr) (s : State) : IgnoresUnread (exec i) s :=
  match i with
  | .nop _ => .next fun x => ⟨x, rfl⟩
  | .load _ | .add _ | .sub _ | .cmp _ | .gt _ | .lt _ => .withData fun _ _ => rfl
  | .store addr => execStore_ignoresUnread addr s
  | .jmp _ => .next fun x => ⟨x, rfl⟩
  | .jz _ | .jnz _ => .next fun x => ⟨x, by rw [apply_ite (State.withUnread x)]; rfl⟩
  | .hlt _ => .next fun x => ⟨{ x with haltCause := .hlt }, rfl⟩
  | .cmpVal _ | .gtVal _ | .ltVal _ | .notAcc _ => .next fun x => ⟨x, rfl⟩
  | .setX _ | .setY _ | .setR _ | .setG _ | .setB _ => .next fun _ => ⟨_, setFbReg_withUnread ..⟩
  | .setXFromAcc _ | .setYFromAcc _ | .setRFromAcc _ | .setGFromAcc _ | .setBFromAcc _ =>
    .next fun _ => ⟨_, setFbReg_withUnread ..⟩
  | .drawPixel _ => .next fun x => ⟨{ x with fb := x.fb.drawPixel x.fbW x.fbH }, rfl⟩
  | .clearScreen _ => .next fun x => ⟨{ x with fb := x.fb.clear }, rfl⟩
  | .keyAvailable _ | .peekKey _ | .logLoad _ => .next fun x => ⟨x, rfl⟩
  | .getKey _ => .next fun x => ⟨x, rfl⟩
  | .logAdd opnd => execLogAdd_ignoresUnread opnd s
  | .logStore _ => .next fun x => ⟨x, rfl⟩
  | .logPrint _ => .next fun x => ⟨{ x with out := x.out ++ [.logPrint s.log] }, rfl⟩

/-! ### Engine, host and step -/

theorem engineStep_ignoresUnread (s : State) : IgnoresUnread engineStep s := by
  intro x t ht
  rw [engineStep_eq (s.withUnread x)]
  obtain ⟨hrun, rfl⟩ | ⟨hrun, hend, rfl⟩ | ⟨hrun, hpc, hcase⟩ := engineStep_next ht
  · exact ⟨x, by simp [hrun]⟩
  · exact ⟨{ x with haltCause := .endOfMemory }, by simp [hrun, hend]; rfl⟩
  · simp only [State.withUnread_run, State.withUnread_memSize, State.withUnread_opmap, State.withUnread_pc,
      State.withUnread_mem, hrun, Nat.not_le.mpr hpc, Bool.true_eq_false, if_false, dispatch]
    obtain ⟨why, hdec, rfl⟩ | ⟨i, hdec, hexec⟩ := hcase
    · exact ⟨{ x with haltCause := .unmappedOpcode, out := x.out ++ [.unmappedOpcode s.pc _] }, by rw [hdec]; rfl⟩
    · rw [hdec]
      exact exec_ignoresUnread i _ { x with out := x.out ++ [.trace s.pc _ _] } t hexec

theorem hostMove_ignoresUnread (m : HostMove) (s : State) : IgnoresUnread (fun s => .next (hostMove m s)) s :=
  match m with
  | .pushCode _ | .pushKey _ => .next fun x => ⟨x, rfl⟩
  | .resetDirty => .next fun x => ⟨{ x with fb := x.fb.resetDirty }, rfl⟩
  | .stop => .next fun x => by
    cases hrun : s.run with
    | true => exact ⟨{ x with haltCause := .hostStop }, by simp [hostMove, hostStop, hrun]; rfl⟩
    | false => exact ⟨x, by simp [hostMove, hostStop, hrun]⟩

theorem step_of_host {m : HostMove} {rest : List Turn} (h : s.turns = .host m :: rest) :
    step s = .next (hostMove m (s.setTurns rest)) := by
  simp [step, h]

theorem step_of_engineToMove (h : s.engineToMove) : step s = engineStep (s.setTurns s.turns.tail) := by
  obtain ⟨m, rest, hm, -⟩ | ⟨-, he⟩ := step_eq s
  · simp [State.engineToMove, hm] at h
  · exact he

theorem step_ignoresUnread (s : State) : IgnoresUnread step s := by
  intro x
  obtain ⟨m, rest, hm, -⟩ | ⟨he, -⟩ := step_eq s
  · rw [step_of_host hm, step_of_host (s := s.withUnread x) hm]
    exact hostMove_ignoresUnread m (s.setTurns rest) x
  · rw [step_of_engineToMove he, step_of_engineToMove (s := s.withUnread x) he]
    exact engineStep_ignoresUnread (s.setTurns s.turns.tail) x

/-- Settles O44: agreeing states differ in their unread parts alone, and a step ignores those. -/
theorem computationIgnoresWhatNoInstructionReads : Obligations.ComputationIgnoresWhatNoInstructionReads := by
  intro s u s' h hstep
  rw [h.eq_withUnread]
  obtain ⟨y, hy⟩ := step_ignoresUnread s u.unread s' hstep
  exact ⟨_, hy, sameComputation_withUnread s' y⟩

end Sys2Proof.Machine
end

section
/-! PROOFS. Where memory ends (20_memory.md R41 to R43, R53): an access outside it faults, a machine with at least 256 cells
makes no such access in a run of any length, and a store is there for the very next fetch. -/

namespace Sys2Proof.Machine

variable {s t : State}

/-! ### Access outside memory -/

/-- A store outside memory ends in the out-of-range fault. -/
theorem finish_writeData_fault {opnd v : Byte} (h : s.cfg.memSize ≤ opnd.toNat) :
    finish (writeData opnd v s) = .fault (.memoryOutOfRange opnd.toNat) := by
  simp [writeData, memWrite_eq, Nat.not_lt.mpr h, finish]

/-- Settles O12: each of these instructions is its one data access, and that access faults. -/
theorem accessOutsideMemoryFaults : Obligations.AccessOutsideMemoryFaults := by
  intro a s h
  have hread {k : Byte → State} : withData a s k = .fault (.memoryOutOfRange a.toNat) := withData_fault h
  refine ⟨?_, fun hmode => (execLogAdd_mem a hmode).trans hread⟩
  simp only [List.forall_mem_cons]
  exact ⟨hread, finish_writeData_fault h, hread, hread, hread, hread, hread, List.forall_mem_nil _⟩

/-! ### A store and the next fetch -/

/-- Settles O39: a fetch reads the memory the store has written. -/
theorem storeIsSeenByTheNextFetch : Obligations.StoreIsSeenByTheNextFetch := by
  intro a s t hstore hpc
  obtain ⟨-, rfl⟩ := finish_writeData_next hstore
  rw [fetch_ok hpc, State.setMem_mem, Memory.read_write, Memory.read_write]

/-! ### Runs of a machine with at least 256 cells -/

/-- With 256 cells or more a byte names no cell outside memory (20_memory.md R43). -/
theorem operand_inside (h : 256 ≤ s.cfg.memSize) (opnd : Byte) : opnd.toNat < s.cfg.memSize :=
  Nat.lt_of_lt_of_le opnd.isLt h

/-- The instructions with a data operand find their cell, and the others do nothing that can fail. -/
theorem exec_answers_next (h : 256 ≤ s.cfg.memSize) (i : Instr) : ∃ t, exec i s = .next t :=
  match i with
  | .load a | .add a | .sub a | .cmp a | .gt a | .lt a => ⟨_, withData_ok (operand_inside h a)⟩
  | .store a => ⟨_, exec_store (operand_inside h a)⟩
  | .logAdd a =>
    match hmode : s.cfg.logAddMode with
    | .imm => ⟨_, execLogAdd_imm a hmode⟩
    | .mem => ⟨_, (execLogAdd_mem a hmode).trans (withData_ok (operand_inside h a))⟩
  | .nop _ | .jmp _ | .jz _ | .jnz _ | .hlt _ => ⟨_, rfl⟩
  | .cmpVal _ | .gtVal _ | .ltVal _ | .notAcc _ => ⟨_, rfl⟩
  | .setX _ | .setY _ | .setR _ | .setG _ | .setB _ => ⟨_, rfl⟩
  | .setXFromAcc _ | .setYFromAcc _ | .setRFromAcc _ | .setGFromAcc _ | .setBFromAcc _ => ⟨_, rfl⟩
  | .drawPixel _ | .clearScreen _ | .keyAvailable _ | .getKey _ | .peekKey _ => ⟨_, rfl⟩
  | .logLoad _ | .logStore _ | .logPrint _ => ⟨_, rfl⟩

/-- Two fetched bytes are an instruction, which completes, or no instruction, which stops the engine. -/
theorem dispatch_answers_next (h : 256 ≤ s.cfg.memSize) (opcode opnd : Byte) : ∃ t, dispatch opcode opnd s = .next t := by
  unfold dispatch
  split
  · exact exec_answers_next (s := s.fetched opcode opnd) h _
  · exact ⟨_, rfl⟩

/-- The end-of-memory test stands before the fetch, so that no fetch faults (40_engine_cycle.md R91). -/
theorem engineStep_answers_next (h : 256 ≤ s.cfg.memSize) : ∃ t, engineStep s = .next t := by
  rw [engineStep_eq]
  split
  · exact ⟨_, rfl⟩
  · split
    · exact ⟨_, rfl⟩
    · exact dispatch_answers_next h _ _

theorem step_answers_next (h : 256 ≤ s.cfg.memSize) : ∃ t, step s = .next t := by
  obtain ⟨m, rest, -, hm⟩ | ⟨-, he⟩ := step_eq s
  · exact ⟨_, hm⟩
  · rw [he]
    exact engineStep_answers_next (s := s.setTurns s.turns.tail) h

/-- A run that begins with a step to `t` goes on from `t`. -/
theorem run_succ_of_step (k : Nat) (h : step s = .next t) : Sys2Proof.core.run (k + 1) s = Sys2Proof.core.run k t := by
  have hcore : Sys2Proof.core.step s = .next t := h
  simp only [Host.Core.run, hcore]

/-- What lets a step complete and is kept by it lets every run complete and holds at its end. -/
theorem run_answers_next {p : State → Prop} (hstep : ∀ s, p s → ∃ t, step s = .next t ∧ p t) (k : Nat) (h : p s) :
    ∃ t, Sys2Proof.core.run k s = .next t ∧ p t := by
  induction k generalizing s with
  | zero => exact ⟨s, rfl, h⟩
  | succ k ih =>
    obtain ⟨t, hst, ht⟩ := hstep s h
    rw [run_succ_of_step k hst]
    exact ih ht

/-- Settles O42: with 256 cells or more a step completes, and since it keeps the parameters, so does every later one. -/
theorem legalMachineNeverStopsAbnormally : Obligations.LegalMachineNeverStopsAbnormally := by
  intro k s hsize
  have hstep (s : State) (h : 256 ≤ s.cfg.memSize) : ∃ t, step s = .next t ∧ 256 ≤ t.cfg.memSize := by
    obtain ⟨t, hst⟩ := step_answers_next h
    obtain ⟨hcfg, -⟩ := stepsAppendToOutAndKeepParameters s t hst
    exact ⟨t, hst, hcfg ▸ h⟩
  obtain ⟨t, hrun, -⟩ := run_answers_next hstep k hsize
  exact ⟨t, hrun⟩

end Sys2Proof.Machine
end

section
/-! PROOFS. Decoding and encoding under a legal opcode map (30_encoding.md R60 to R67): each mnemonic has one byte and that
byte is the mnemonic's, so the two directions undo each other; and by a count the mapped bytes fill the four ranges. -/

namespace Sys2Proof

variable {m : OpMap} {opcode opnd : Byte} {i : Instr}

/-! ### The two directions of the table -/

/-- In a legal map every mnemonic has a byte that stands for it. -/
theorem OpMap.exists_byteOf (h : m.wf = true) (k : Mnemonic) : ∃ b, m.byteOf k = some b ∧ m.lookup b = some k := by
  obtain ⟨-, -, -, hcomplete⟩ := (OpMap.wf_iff m).mp h
  obtain ⟨b, hb⟩ := hcomplete k
  exact ⟨b, OpMap.byteOf_of_mem h hb, OpMap.lookup_of_mem h hb⟩

/-- A mapped opcode byte decodes to its mnemonic's instruction. -/
theorem decode_of_lookup {k : Mnemonic} (h : m.lookup opcode = some k) :
    decode m opcode opnd = .instr (Instr.make k opnd) := by
  simp [decode, h]

/-- An unmapped opcode byte is rejected by name. -/
theorem decode_of_lookup_none (h : m.lookup opcode = none) : decode m opcode opnd = .rejected (.unmappedOpcode opcode) := by
  simp [decode, h]

/-- Two bytes decode to an instruction exactly when the first is mapped to its mnemonic and the second is its operand. -/
theorem decode_eq_instr : decode m opcode opnd = .instr i ↔ m.lookup opcode = some i.mnemonic ∧ i.operand = opnd := by
  cases hk : m.lookup opcode with
  | none => simp [decode_of_lookup_none hk]
  | some k =>
    rw [decode_of_lookup hk, Decoded.instr.injEq, Option.some.injEq]
    constructor
    · rintro rfl
      simp
    · rintro ⟨rfl, rfl⟩
      exact i.make_parts

/-- Settles O2: the mnemonic's byte looks up the mnemonic, and the operand byte is carried along. -/
theorem decodingUndoesEncoding : Obligations.DecodingUndoesEncoding := by
  intro m i h
  obtain ⟨b, hbyte, hlookup⟩ := OpMap.exists_byteOf h i.mnemonic
  exact ⟨b, i.operand, by simp [encode, hbyte], decode_eq_instr.mpr ⟨hlookup, rfl⟩⟩

/-- Settles O3: a byte mapped to a mnemonic is that mnemonic's byte. -/
theorem encodingUndoesDecoding : Obligations.EncodingUndoesDecoding := by
  intro m opcode opnd i h hdec
  obtain ⟨hlookup, rfl⟩ := decode_eq_instr.mp hdec
  simp [encode, OpMap.byteOf_of_mem h (OpMap.mem_of_lookup hlookup)]

/-! ### The mapped bytes -/

/-- The numbers of the four ranges (30_encoding.md R62), 35 in all. -/
def opcodeNumbers : List Nat := List.range' 0x00 16 ++ List.range' 0x10 12 ++ List.range' 0x20 3 ++ List.range' 0x30 4

theorem mem_opcodeNumbers {n : Nat} :
    n ∈ opcodeNumbers ↔
      n ≤ 0x0F ∨ (0x10 ≤ n ∧ n ≤ 0x1B) ∨ (0x20 ≤ n ∧ n ≤ 0x22) ∨ (0x30 ≤ n ∧ n ≤ 0x33) := by
  simp only [opcodeNumbers, List.mem_append, List.mem_range'_1]
  omega

/-- A byte in a group's range is one of the numbers. -/
theorem Group.toNat_mem_opcodeNumbers {g : Group} {b : Byte} (h : g.contains b = true) : b.toNat ∈ opcodeNumbers := by
  simp only [Group.contains, Bool.and_eq_true, decide_eq_true_eq] at h
  rw [mem_opcodeNumbers]
  cases g <;> simp only [Group.first, Group.last] at h <;> omega

/-- The byte numbers a map lists. -/
def OpMap.numbers (m : OpMap) : List Nat := (m.map Prod.fst).map BitVec.toNat

/-- The 35 mnemonics of a legal map stand beside 35 different bytes inside the ranges, which hold no more. -/
theorem OpMap.numbers_perm (h : m.wf = true) : m.numbers.Perm opcodeNumbers := by
  obtain ⟨hrange, hbytes, -, hcomplete⟩ := (OpMap.wf_iff m).mp h
  have hnodup : m.numbers.Nodup := hbytes.map fun _ _ => BitVec.eq_of_toNat_eq
  have hinside : m.numbers ⊆ opcodeNumbers := by
    intro n hn
    obtain ⟨b, hb, rfl⟩ := List.mem_map.mp hn
    obtain ⟨e, he, rfl⟩ := List.mem_map.mp hb
    exact Group.toNat_mem_opcodeNumbers (hrange e he)
  have hall : Mnemonic.all ⊆ m.map Prod.snd := by
    intro k _
    obtain ⟨b, hb⟩ := hcomplete k
    exact List.mem_map_of_mem (f := Prod.snd) hb
  have hcount : opcodeNumbers.length ≤ (m.map Prod.snd).length := (List.subperm_of_subset (by decide) hall).length_le
  exact (List.subperm_of_subset hnodup hinside).perm_of_length_le (by simpa [OpMap.numbers] using hcount)

/-- A legal map maps exactly the bytes of the four ranges. -/
theorem OpMap.lookup_isSome_iff (h : m.wf = true) : (∃ k, m.lookup opcode = some k) ↔ opcode.toNat ∈ opcodeNumbers := by
  rw [← (OpMap.numbers_perm h).mem_iff]
  constructor
  · rintro ⟨k, hk⟩
    exact List.mem_map_of_mem (List.mem_map_of_mem (f := Prod.fst) (OpMap.mem_of_lookup hk))
  · intro hn
    obtain ⟨b, hb, heq⟩ := List.mem_map.mp hn
    obtain ⟨⟨_, k⟩, he, rfl⟩ := List.mem_map.mp hb
    obtain rfl := BitVec.eq_of_toNat_eq heq
    exact ⟨k, OpMap.lookup_of_mem h he⟩

/-- Settles O4: the mapped bytes are the four ranges, and an opcode byte decodes to an instruction when it is mapped. -/
theorem mappedBytesAreTheFourRanges : Obligations.MappedBytesAreTheFourRanges := by
  intro m opcode opnd h
  rw [← mem_opcodeNumbers, ← OpMap.lookup_isSome_iff h]
  cases hk : m.lookup opcode with
  | none => simp [decode_of_lookup_none hk]
  | some k => simp [decode_of_lookup hk]

/-- Settles O1: the words' opcode bytes are looked up in the standard map. -/
theorem writtenOutWordsDecode : Obligations.WrittenOutWordsDecode := ⟨rfl, rfl, rfl, rfl, rfl, rfl⟩

end Sys2Proof
end

section
/-! PROOFS. The assembler and the disassembly (30_encoding.md R69 to R72, R77): what an assembly of pairs is made of, said once
for the first pair and the rest, and the spelling of the mnemonics. -/

namespace Sys2Proof.Machine

variable {m : OpMap} {token literal : Token} {pairs : List (Token × Token)} {bytes : List Byte}

/-! ### Tokens -/

/-- The spellings differ, so each names its own mnemonic. -/
theorem mnemonicOfToken_name (k : Mnemonic) : mnemonicOfToken (mnemonicName k) = some k := by
  cases k <;> rfl

theorem mnemonicOfToken_eq_some {k : Mnemonic} : mnemonicOfToken token = some k ↔ token = mnemonicName k := by
  constructor
  · intro h
    have hname := List.find?_some h
    exact (beq_iff_eq.mp hname).symm
  · rintro rfl
    exact mnemonicOfToken_name k

/-! ### Assembly -/

theorem assemblePair_eq_some {opcode opnd : Byte} :
    assemblePair m token literal = some (opcode, opnd) ↔
      ∃ k, mnemonicOfToken token = some k ∧ m.byteOf k = some opcode ∧ opnd = operandLiteral literal := by
  unfold assemblePair
  cases mnemonicOfToken token with
  | none => simp
  | some k => simp [Prod.ext_iff, eq_comm]

/-- An assembly that succeeds is the two bytes of the first pair, then an assembly of the rest. -/
theorem assemble_cons_ok :
    assemble m ((token, literal) :: pairs) = .ok bytes ↔
      ∃ k opcode rest, mnemonicOfToken token = some k ∧ m.byteOf k = some opcode ∧ assemble m pairs = .ok rest ∧
        bytes = opcode :: operandLiteral literal :: rest := by
  rw [assemble]
  constructor
  · intro h
    split at h
    case h_1 opcode opnd rest hpair hrest =>
      obtain ⟨k, hk, hbyte, rfl⟩ := assemblePair_eq_some.mp hpair
      exact ⟨k, opcode, rest, hk, hbyte, hrest, (Except.ok.inj h).symm⟩
    all_goals cases h
  · rintro ⟨k, opcode, rest, hk, hbyte, hrest, rfl⟩
    rw [assemblePair_eq_some.mpr ⟨k, hk, hbyte, rfl⟩, hrest]

/-- Settles O47, by induction on the pairs. -/
theorem assemblerEmitsTwoBytesPerPair : Obligations.AssemblerEmitsTwoBytesPerPair := by
  intro m pairs
  induction pairs with
  | nil =>
    intro bytes h
    cases h
    simp
  | cons pair pairs ih =>
    intro bytes h
    obtain ⟨name, opcode, rest, hname, hopcode, hrest, rfl⟩ := assemble_cons_ok.mp h
    obtain ⟨hlen, hbytes⟩ := ih rest hrest
    refine ⟨by simp [hlen, Nat.mul_add], fun k token literal hk => ?_⟩
    cases k with
    | zero =>
      obtain rfl : pair = (token, literal) := by simpa using hk
      exact ⟨name, opcode, hname, hopcode, rfl, rfl⟩
    | succ k => exact hbytes k token literal (by simpa using hk)

/-- Settles O48, by induction on the pairs: a legal map has a byte for every mnemonic. -/
theorem assemblerAcceptsExactlyTheMnemonics : Obligations.AssemblerAcceptsExactlyTheMnemonics := by
  intro m pairs h
  induction pairs with
  | nil => simp [assemble]
  | cons pair pairs ih =>
    rw [List.forall_mem_cons, ← ih]
    constructor
    · rintro ⟨bytes, hbytes⟩
      obtain ⟨name, opcode, rest, hname, -, hrest, -⟩ := assemble_cons_ok.mp hbytes
      exact ⟨⟨name, mnemonicOfToken_eq_some.mp hname⟩, rest, hrest⟩
    · rintro ⟨⟨name, hname⟩, rest, hrest⟩
      obtain ⟨opcode, hopcode, -⟩ := OpMap.exists_byteOf h name
      exact ⟨_, assemble_cons_ok.mpr ⟨name, opcode, rest, mnemonicOfToken_eq_some.mpr hname, hopcode, hrest, rfl⟩⟩

/-- Settles O49, by induction on the pairs: a mnemonic's byte in a legal map looks up the mnemonic. -/
theorem disassemblyReturnsTheMnemonics : Obligations.DisassemblyReturnsTheMnemonics := by
  intro m pairs h
  induction pairs with
  | nil => exact ⟨[], rfl, rfl⟩
  | cons pair pairs ih =>
    obtain ⟨rest, hrest, hback⟩ := ih
    obtain ⟨opcode, hopcode, hlookup⟩ := OpMap.exists_byteOf h pair.1
    refine ⟨opcode :: operandLiteral pair.2 :: rest, ?_, by simp [disassemble, hlookup, hback]⟩
    exact assemble_cons_ok.mpr ⟨pair.1, opcode, rest, mnemonicOfToken_name pair.1, hopcode, hrest, rfl⟩

end Sys2Proof.Machine
end

section
/-! PROOFS. The compiler's relational and expression idioms (30_encoding.md R73, R75): what the compares, `ADD` and `SUB`
bring to ACC, the sum and the difference of operands of any code, and the lowering of an expression. -/

namespace Sys2Proof.Machine

variable {s t u : State} {i : Instr} {left right : List Instr} {a c d : Byte}

/-! ### Sequences -/

/-- A sequence runs its first instruction and then the rest. -/
theorem execAll_cons (rest : List Instr) (h : exec i s = .next t) : execAll (i :: rest) s = execAll rest t := by
  simp [execAll, h]

/-- A sequence whose parts complete completes. -/
theorem execAll_append_next (hl : execAll left s = .next t) (hr : execAll right t = .next u) :
    execAll (left ++ right) s = .next u :=
  (execAll_append _ _ hl).trans hr

/-- No sequence writes the parameters (00_scope.md R5). -/
theorem execAll_cfg {code : List Instr} (h : execAll code s = .next t) : t.cfg = s.cfg := by
  induction code generalizing s with
  | nil =>
    cases h
    rfl
  | cons i rest ih =>
    cases hi : exec i s with
    | next u =>
      obtain ⟨hcfg, -⟩ := onlyStoreWritesMemoryOnlyLogPrintReports i s u hi
      rw [execAll_cons rest hi] at h
      exact (ih h).trans hcfg
    | fault f => simp [execAll, hi] at h
    | refused r => simp [execAll, hi] at h

/-! ### Relations -/

/-- The truth value that the compare instruction of a relation gives, before a `NOT` (30_encoding.md R73). -/
def compareHolds : Relation → Byte → Byte → Bool
  | .ne | .eq => differs
  | .gt | .le => greater
  | .lt | .ge => less

/-- A compare of either form leaves its truth value in ACC (42_compare.md R131 to R136). -/
theorem exec_relationCompare (rel : Relation) {k : RightSide} (h : rightSideInMemory s k) :
    exec (relationCompare rel k) s = .next (s.setAcc (boolByte (compareHolds rel s.acc (rightSideValue s k)))) := by
  cases k with
  | literal v => cases rel <;> rfl
  | cell a => cases rel <;> exact withData_ok h

theorem differs_eq (a k : Byte) : differs a k = decide (a.toNat ≠ k.toNat) := by
  by_cases h : a = k <;> simp [differs, h, BitVec.toNat_inj]

/-- The relation is what its compare says, negated where the idiom has a `NOT`. -/
theorem relationHolds_eq (rel : Relation) (a k : Byte) :
    relationHolds rel a.toNat k.toNat = (relationNegates rel ^^ compareHolds rel a k) := by
  cases rel with
  | ne | eq => simp [relationHolds, relationNegates, compareHolds, differs_eq]
  | gt | lt => simp [relationHolds, relationNegates, compareHolds, greater, less]
  | ge | le =>
    simp only [relationHolds, relationNegates, compareHolds, greater, less, Bool.true_xor, ← decide_not, Nat.not_lt]

/-- `NOT` negates a truth value. -/
theorem boolByte_isZero_boolByte (b : Bool) : boolByte (isZero (boolByte b)) = boolByte !b := by
  cases b <;> rfl

/-- Settles O16: the compare gives the relation or its negation, and in the second case a `NOT` follows. -/
theorem relationIdiomsComputeTheRelation : Obligations.RelationIdiomsComputeTheRelation := by
  intro rel k s h
  have hcompare := exec_relationCompare rel h
  rw [relationHolds_eq, ← boolByte_eq, relationIdiom]
  cases relationNegates rel with
  | false =>
    rw [Bool.false_xor]
    exact execAll_cons [] hcompare
  | true =>
    rw [if_pos rfl, execAll_cons _ hcompare, Bool.true_xor, ← boolByte_isZero_boolByte]
    exact execAll_cons [] rfl

/-! ### Sums and differences -/

theorem exec_add (h : a.toNat < s.cfg.memSize) : exec (.add a) s = .next (s.setAcc (s.acc + s.mem.read a.toNat)) :=
  withData_ok h

theorem exec_sub (h : a.toNat < s.cfg.memSize) : exec (.sub a) s = .next (s.setAcc (s.acc - s.mem.read a.toNat)) :=
  withData_ok h

theorem ofNat_sum (x y : Byte) : BitVec.ofNat 8 ((x.toNat + y.toNat) % 256) = x + y := by
  apply BitVec.eq_of_toNat_eq
  simp

theorem ofNat_difference (x y : Byte) : BitVec.ofNat 8 ((x.toNat + 256 - y.toNat) % 256) = x - y := by
  apply BitVec.eq_of_toNat_eq
  simp only [BitVec.toNat_ofNat, BitVec.toNat_sub]
  omega

/-- Both operator idioms park the left operand's value in its scratch cell while the right operand's code runs. -/
theorem execAll_parkLeft (rest : List Instr) (hc : c.toNat < s.cfg.memSize) (hl : execAll left s = .next t)
    (hr : execAll right (t.setMem (t.mem.write c.toNat t.acc)) = .next u) :
    execAll (left ++ .store c :: right ++ rest) s = execAll rest u := by
  have hstore : exec (.store c) t = .next (t.setMem (t.mem.write c.toNat t.acc)) := exec_store (execAll_cfg hl ▸ hc)
  exact execAll_append _ _ (execAll_append_next hl ((execAll_cons right hstore).trans hr))

/-- What runs between the parking of the left operand and the operator leaves memory its size. -/
theorem cfg_of_parkLeft (hl : execAll left s = .next t)
    (hr : execAll right (t.setMem (t.mem.write c.toNat t.acc)) = .next u) : u.cfg = s.cfg := by
  have hleft : t.cfg = s.cfg := execAll_cfg hl
  have hright : u.cfg = (t.setMem _).cfg := execAll_cfg hr
  exact hright.trans hleft

theorem execAll_sumCode (hc : c.toNat < s.cfg.memSize) (hl : execAll left s = .next t)
    (hr : execAll right (t.setMem (t.mem.write c.toNat t.acc)) = .next u) :
    execAll (sumCode left right c) s = .next (u.setAcc (u.acc + u.mem.read c.toNat)) := by
  have hcfg := cfg_of_parkLeft hl hr
  rw [sumCode, execAll_parkLeft _ hc hl hr]
  exact execAll_cons [] (exec_add (hcfg ▸ hc))

theorem execAll_differenceCode (hc : c.toNat < s.cfg.memSize) (hd : d.toNat < s.cfg.memSize) (hcd : c ≠ d)
    (hl : execAll left s = .next t) (hr : execAll right (t.setMem (t.mem.write c.toNat t.acc)) = .next u) :
    execAll (differenceCode left right c d) s =
      .next ((u.setMem (u.mem.write d.toNat u.acc)).setAcc (u.mem.read c.toNat - u.acc)) := by
  have hcfg := cfg_of_parkLeft hl hr
  rw [← hcfg] at hd hc
  have hne : c.toNat ≠ d.toNat := BitVec.toNat_ne.mp hcd
  rw [differenceCode, execAll_parkLeft _ (hcfg ▸ hc) hl hr, execAll_cons _ (exec_store hd), 
    execAll_cons _ (exec_load (s := u.setMem (u.mem.write d.toNat u.acc)) hc),
    execAll_cons _ (exec_sub (s := (u.setMem (u.mem.write d.toNat u.acc)).setAcc _) hd)]
  simp only [execAll, State.setAcc_acc, State.setAcc_mem, State.setMem_mem, Memory.read_write, hne, if_true, if_false]
  rfl

/-- Settles O54: the two idioms park the left operand and combine it with what the right operand's code leaves in ACC. -/
theorem sumAndDifferenceCombineTheirOperands : Obligations.SumAndDifferenceCombineTheirOperands := by
  intro left right c d s t u hc hd hcd hl hr
  rw [execAll_sumCode hc hl hr, execAll_differenceCode hc hd hcd hl hr, ofNat_sum, ofNat_difference]
  exact ⟨rfl, rfl⟩

/-- Settles O17: with two loads as operands the right one's cell is not the scratch cell, so it is read as before. -/
theorem sumIdiomAddsThroughScratch : Obligations.SumIdiomAddsThroughScratch := by
  intro l r c s hl hr hc hcr
  have hne : r.toNat ≠ c.toNat := BitVec.toNat_ne.mp hcr.symm
  refine ⟨s.mem.write c.toNat (s.mem.read l.toNat), ?_, by simp [Memory.read_write],
    fun b hb => by simp [Memory.read_write, hb]⟩
  rw [sumIdiom, execAll_sumCode hc (execAll_cons [] (exec_load hl)) (execAll_cons [] (exec_load hr)), ofNat_sum]
  simp only [State.setAcc_acc, State.setAcc_mem, State.setMem_mem, Memory.read_write, hne, if_true, if_false]
  rw [BitVec.add_comm]
  rfl

/-! ### Expressions -/

/-- Two states with the same parameters whose memories differ in the scratch cells 254 and 255 at most. -/
structure SameOutsideScratch (s u : State) : Prop where
  cfg_eq : u.cfg = s.cfg
  read_eq : ∀ a, a ≠ 254 → a ≠ 255 → u.mem.read a = s.mem.read a

theorem SameOutsideScratch.refl (s : State) : SameOutsideScratch s s := ⟨rfl, fun _ _ _ => rfl⟩

/-- A write to a scratch cell is no difference outside. -/
theorem SameOutsideScratch.write (h : SameOutsideScratch s u) (hc : scratchBase ≤ c.toNat) (v : Byte) :
    SameOutsideScratch s (u.setMem (u.mem.write c.toNat v)) where
  cfg_eq := h.cfg_eq
  read_eq a h254 h255 := by
    have hne : a ≠ c.toNat := by
      simp only [scratchBase] at hc
      omega
    rw [State.setMem_mem, Memory.read_write, if_neg hne, h.read_eq a h254 h255]

theorem SameOutsideScratch.setAcc (h : SameOutsideScratch s u) (v : Byte) : SameOutsideScratch s (u.setAcc v) :=
  ⟨h.cfg_eq, h.read_eq⟩

theorem SameOutsideScratch.setFb (h : SameOutsideScratch s u) (fb : Framebuffer) : SameOutsideScratch s (u.setFb fb) :=
  ⟨h.cfg_eq, h.read_eq⟩

/-- The scratch cells' assignment is legal. -/
theorem Scratch.wf_iff (sc : Scratch) :
    sc.wf = true ↔ scratchBase ≤ sc.sumLeft.toNat ∧ scratchBase ≤ sc.differenceLeft.toNat ∧
      scratchBase ≤ sc.differenceRight.toNat ∧ sc.differenceLeft ≠ sc.differenceRight := by
  simp [Scratch.wf, and_assoc]

/-- Every literal and every variable of the expression has its cell in the layout. -/
structure Expr.AllocatedIn (L : Layout) (e : Expr) : Prop where
  literals_mem : ∀ v ∈ e.literals, v ∈ L.constants
  names_mem : ∀ x ∈ e.names, x ∈ L.names

theorem Expr.value_sum (env : Token → Byte) (l r : Expr) : (Expr.sum l r).value env = l.value env + r.value env :=
  ofNat_sum _ _

theorem Expr.value_difference (env : Token → Byte) (l r : Expr) :
    (Expr.difference l r).value env = l.value env - r.value env :=
  ofNat_difference _ _

/-- An operation's cells are its operands' cells. -/
theorem Expr.AllocatedIn.operands {L : Layout} {e l r : Expr} (h : e.AllocatedIn L)
    (hlit : e.literals = l.literals ++ r.literals) (hnames : e.names = l.names ++ r.names) :
    l.AllocatedIn L ∧ r.AllocatedIn L := by
  obtain ⟨hv, hx⟩ := h
  rw [hlit, List.forall_mem_append] at hv
  rw [hnames, List.forall_mem_append] at hx
  exact ⟨⟨hv.1, hx.1⟩, ⟨hv.2, hx.2⟩⟩

section Lowering

variable {L : Layout} {sc : Scratch}

/-- A literal or a variable is one load of its cell, which lies below the scratch cells. -/
theorem execAll_lower_leaf (hL : L.Ready sc s) (hu : SameOutsideScratch s u) {e : Expr} (he : e.leaf = true)
    (ha : e.AllocatedIn L) : execAll (e.lower L sc) u = .next (u.setAcc (e.value (L.valueOf s))) := by
  have hinside (opnd : Byte) : opnd.toNat < u.cfg.memSize := operand_inside (hu.cfg_eq ▸ hL.operands_inside) opnd
  cases e with
  | literal v =>
    have hv := ha.literals_mem v (List.mem_singleton_self v)
    have hcell := Layout.constantAddress_lt hL.apart hv
    rw [Expr.lower, execAll_cons _ (exec_load (hinside _)), Layout.constantByte_toNat hL.apart hv,
      hu.read_eq _ (by omega) (by omega), hL.constants_loaded v hv]
    rfl
  | named x =>
    have hx := ha.names_mem x (List.mem_singleton_self x)
    have hcell := Layout.variableAddress_lt hL.apart hx
    rw [Expr.lower, execAll_cons _ (exec_load (hinside _)), Layout.variableByte_toNat hL.apart hx,
      hu.read_eq _ (by omega) (by omega)]
    rfl
  | sum l r | difference l r => simp [Expr.leaf] at he

/-- The lowering of an expression leaves its value in ACC and changes only scratch cells besides. -/
theorem execAll_lower (hL : L.Ready sc s) (hu : SameOutsideScratch s u) {e : Expr} (he : e.rightsAreLeaves = true)
    (ha : e.AllocatedIn L) :
    ∃ m, execAll (e.lower L sc) u = .next ((u.setMem m).setAcc (e.value (L.valueOf s))) ∧
      SameOutsideScratch s (u.setMem m) := by
  have hinside (opnd : Byte) : opnd.toNat < u.cfg.memSize := operand_inside (hu.cfg_eq ▸ hL.operands_inside) opnd
  obtain ⟨hsum, hleft, hright, hapart⟩ := sc.wf_iff.mp hL.scratch_wf
  induction e with
  | literal v | named x => exact ⟨u.mem, execAll_lower_leaf hL hu rfl ha, hu⟩
  | sum l r ihl _ =>
    obtain ⟨hl, hr⟩ := Bool.and_eq_true_iff.mp he
    obtain ⟨hal, har⟩ := ha.operands rfl rfl
    obtain ⟨m, hcode, hsame⟩ := ihl hl hal
    have hparked := hsame.write hsum (l.value (L.valueOf s))
    have hrun := execAll_sumCode (hinside _) hcode (execAll_lower_leaf hL (hparked.setAcc _) hr har)
    refine ⟨_, hrun.trans ?_, hparked⟩
    simp only [State.setAcc_acc, State.setAcc_mem, State.setMem_mem, Memory.read_write, if_true]
    rw [Expr.value_sum, BitVec.add_comm]
    rfl
  | difference l r ihl _ =>
    obtain ⟨hl, hr⟩ := Bool.and_eq_true_iff.mp he
    obtain ⟨hal, har⟩ := ha.operands rfl rfl
    obtain ⟨m, hcode, hsame⟩ := ihl hl hal
    have hparked := hsame.write hleft (l.value (L.valueOf s))
    have hrun :=
      execAll_differenceCode (hinside _) (hinside _) hapart hcode (execAll_lower_leaf hL (hparked.setAcc _) hr har)
    refine ⟨_, hrun.trans ?_, hparked.write hright (r.value (L.valueOf s))⟩
    simp only [State.setAcc_acc, State.setAcc_mem, State.setMem_mem, Memory.read_write, if_true, Expr.value_difference]
    rfl

end Lowering

/-- Settles O55: from the state itself, by induction on the expression. -/
theorem expressionIdiomComputesItsValue : Obligations.ExpressionIdiomComputesItsValue := by
  intro L sc e s hL he hlit hnames
  obtain ⟨m, hrun, hsame⟩ := execAll_lower hL (.refl s) he ⟨hlit, hnames⟩
  exact ⟨m, hrun, hsame.read_eq⟩

end Sys2Proof.Machine
end

section
/-! PROOFS. The set-pixel call (30_encoding.md R76): each argument's code sets its device register, and `DRAW_PIXEL` then shows
the pixel the five registers name, or nothing off the grid (43_display.md R152). -/

namespace Sys2Proof.Machine

variable {s t : State} {p : State → Prop} {x y r g b : Byte}

/-! ### What the draw shows -/

/-- The machine after `DRAW_PIXEL`. -/
def State.drawn (s : State) : State := s.setFb (s.fb.drawPixel s.cfg.fbW s.cfg.fbH)

theorem exec_drawPixel (ignored : Byte) (s : State) : exec (.drawPixel ignored) s = .next s.drawn := rfl

/-- `t` has the parameters and the picture of `s`, and the given bytes in its device registers. -/
structure AimedAt (x y r g b : Byte) (s t : State) : Prop where
  cfg_eq : t.cfg = s.cfg
  fb_eq : t.fb = ⟨x, y, r, g, b, s.fb.grid, s.fb.dirty⟩

/-- On the grid the one pixel takes the colour, and the dirty flag is set. -/
theorem AimedAt.drawn_inside (h : AimedAt x y r g b s t) (hx : x.toNat < s.cfg.fbW) (hy : y.toNat < s.cfg.fbH) :
    t.drawn.fb.dirty = true ∧
      ∀ px py, t.drawn.getPixel px py = if px = x.toNat ∧ py = y.toNat then ⟨r, g, b⟩ else s.getPixel px py := by
  obtain ⟨hcfg, hfb⟩ := h
  have hdrawn := Framebuffer.drawPixel_inside (fb := ⟨x, y, r, g, b, s.fb.grid, s.fb.dirty⟩) ⟨hx, hy⟩
  rw [State.drawn, hfb, hcfg, hdrawn]
  refine ⟨rfl, fun px py => ?_⟩
  rw [State.getPixel, State.setFb_cfg, hcfg]
  exact Framebuffer.getPixel_write ⟨x, y, r, g, b, s.fb.grid, true⟩ hx hy ⟨r, g, b⟩ px py

/-- Off the grid nothing is drawn. -/
theorem AimedAt.drawn_outside (h : AimedAt x y r g b s t) (hout : s.cfg.fbW ≤ x.toNat ∨ s.cfg.fbH ≤ y.toNat) :
    t.drawn.fb.dirty = s.fb.dirty ∧ ∀ px py, t.drawn.getPixel px py = s.getPixel px py := by
  obtain ⟨hcfg, hfb⟩ := h
  have hdrawn := Framebuffer.drawPixel_outside (w := s.cfg.fbW) (h := s.cfg.fbH)
    (fb := ⟨x, y, r, g, b, s.fb.grid, s.fb.dirty⟩) (fun ⟨hx, hy⟩ => hout.elim hx.not_ge hy.not_ge)
  rw [State.drawn, hfb, hcfg, hdrawn]
  refine ⟨rfl, fun px py => ?_⟩
  rw [State.getPixel, State.setFb_cfg, hcfg]
  rfl

/-! ### Arguments -/

/-- From every state with `p` the code completes with `p` again, the device register set and the rest of the device as
before. -/
def SetsRegister (p : State → Prop) (reg : FbReg) (v : Byte) (code : List Instr) : Prop :=
  ∀ u, p u → ∃ t, execAll code u = .next t ∧ p t ∧ t.fb = u.fb.setReg reg v

/-- The code of five arguments and the draw behind it: the registers hold the arguments' values when the draw runs. -/
theorem execAll_arguments_draw {cx cy cr cg cb : List Instr} (hp : p s) (hcfg : ∀ u, p u → u.cfg = s.cfg)
    (hx : SetsRegister p .x x cx) (hy : SetsRegister p .y y cy) (hr : SetsRegister p .r r cr)
    (hg : SetsRegister p .g g cg) (hb : SetsRegister p .b b cb) :
    ∃ t, execAll (cx ++ cy ++ cr ++ cg ++ cb ++ [.drawPixel 0]) s = .next t.drawn ∧ p t ∧ AimedAt x y r g b s t := by
  obtain ⟨t₁, hrun₁, hp₁, hfb₁⟩ := hx s hp
  obtain ⟨t₂, hrun₂, hp₂, hfb₂⟩ := hy t₁ hp₁
  obtain ⟨t₃, hrun₃, hp₃, hfb₃⟩ := hr t₂ hp₂
  obtain ⟨t₄, hrun₄, hp₄, hfb₄⟩ := hg t₃ hp₃
  obtain ⟨t, hrun, hpt, hfb⟩ := hb t₄ hp₄
  have hfour := execAll_append_next (execAll_append_next (execAll_append_next hrun₁ hrun₂) hrun₃) hrun₄
  refine ⟨t, execAll_append_next (execAll_append_next hfour hrun) (execAll_cons [] (exec_drawPixel 0 t)), hpt, hcfg t hpt, ?_⟩
  rw [hfb, hfb₄, hfb₃, hfb₂, hfb₁]
  rfl

/-- An immediate register set takes no cell and touches the device alone. -/
theorem setsRegister_immediate (hp : ∀ u fb, p u → p (u.setFb fb)) (reg : FbReg) (v : Byte) :
    SetsRegister p reg v [setImmediate reg v] :=
  fun u hu => ⟨_, execAll_cons [] (exec_setImmediate reg v u), hp u _ hu, rfl⟩

/-- Settles O22: five immediate register sets, then the draw. -/
theorem setPixelIdiomDrawsThePixel : Obligations.SetPixelIdiomDrawsThePixel := by
  intro x y r g b s hx hy
  have hset := setsRegister_immediate (p := fun u => u.cfg = s.cfg ∧ u.acc = s.acc ∧ u.mem = s.mem) (fun _ _ h => h)
  obtain ⟨t, hrun, ⟨-, hacc, hmem⟩, haimed⟩ := execAll_arguments_draw (s := s) ⟨rfl, rfl, rfl⟩ (fun _ h => h.1)
    (hset .x x) (hset .y y) (hset .r r) (hset .g g) (hset .b b)
  obtain ⟨hdirty, hpixels⟩ := haimed.drawn_inside hx hy
  exact ⟨t.drawn, hrun, hdirty, hacc, hmem, hpixels⟩

/-- A load and a set from ACC bring a cell's byte to the register and leave memory as it is. -/
theorem setsRegister_load (hsize : 256 ≤ s.cfg.memSize) (a : Byte) (reg : FbReg) :
    SetsRegister (fun u => u.cfg = s.cfg ∧ u.mem = s.mem) reg (s.mem.read a.toNat) [.load a, setFromAcc reg] := by
  rintro u ⟨hcfg, hmem⟩
  have hload : exec (.load a) u = .next (u.setAcc (s.mem.read a.toNat)) :=
    hmem ▸ exec_load (hcfg ▸ operand_inside hsize a)
  exact ⟨_, (execAll_cons _ hload).trans (execAll_cons [] (exec_setFromAcc reg _)), ⟨hcfg, hmem⟩, rfl⟩

/-- Settles O23: each of the five cells is loaded and set from ACC, then the draw. -/
theorem setPixelFromCellsDrawsThePixel : Obligations.SetPixelFromCellsDrawsThePixel := by
  intro x y r g b s hsize hx hy
  have hargument := setsRegister_load hsize
  obtain ⟨t, hrun, ⟨-, hmem⟩, haimed⟩ := execAll_arguments_draw (s := s) ⟨rfl, rfl⟩ (fun _ h => h.1) (hargument x .x)
    (hargument y .y) (hargument r .r) (hargument g .g) (hargument b .b)
  obtain ⟨hdirty, hpixels⟩ := haimed.drawn_inside hx hy
  exact ⟨t.drawn, hrun, hdirty, hmem, hpixels⟩

section Calls

variable {L : Layout} {sc : Scratch} {e : Expr}

/-- An expression's lowering and a set from ACC bring its value to the register. -/
theorem setsRegister_lower (hL : L.Ready sc s) (he : e.rightsAreLeaves = true) (ha : e.AllocatedIn L) (reg : FbReg) :
    SetsRegister (SameOutsideScratch s) reg (e.value (L.valueOf s)) (e.lower L sc ++ [setFromAcc reg]) := by
  intro u hu
  obtain ⟨m, hrun, hsame⟩ := execAll_lower hL hu he ha
  exact ⟨_, execAll_append_next hrun (execAll_cons [] (exec_setFromAcc reg _)), (hsame.setAcc _).setFb _, rfl⟩

/-- An argument of any form brings its value to the register; a literal needs no cell. -/
theorem setsRegister_pixelArgument (hL : L.Ready sc s) (he : e.rightsAreLeaves = true)
    (hlit : ∀ v ∈ e.argumentLiterals, v ∈ L.constants) (hnames : ∀ n ∈ e.names, n ∈ L.names) (reg : FbReg) :
    SetsRegister (SameOutsideScratch s) reg (e.value (L.valueOf s)) (pixelArgument L sc reg e) := by
  cases e with
  | literal v => exact setsRegister_immediate (fun _ fb hu => hu.setFb fb) reg v
  | named x | sum l r | difference l r => exact setsRegister_lower hL he ⟨hlit, hnames⟩ reg

end Calls

/-- Settles O56: each argument sets its register, then the draw shows the pixel on the grid and nothing off it. -/
theorem setPixelCallDrawsItsArguments : Obligations.SetPixelCallDrawsItsArguments := by
  intro L sc x y r g b s hL hargs
  have hargument (e : Expr) (he : e ∈ [x, y, r, g, b]) (reg : FbReg) :
      SetsRegister (SameOutsideScratch s) reg (e.value (L.valueOf s)) (pixelArgument L sc reg e) := by
    obtain ⟨hleaves, hlit, hnames⟩ := hargs e he
    exact setsRegister_pixelArgument hL hleaves hlit hnames reg
  obtain ⟨t, hrun, hsame, haimed⟩ := execAll_arguments_draw (.refl s) (fun _ h => h.cfg_eq)
    (hargument x (by simp) .x) (hargument y (by simp) .y) (hargument r (by simp) .r) (hargument g (by simp) .g)
    (hargument b (by simp) .b)
  exact ⟨t.drawn, hrun, hsame.read_eq, fun ⟨hx, hy⟩ => haimed.drawn_inside hx hy, haimed.drawn_outside⟩

end Sys2Proof.Machine
end

section
/-! PROOFS. The jumps of `if` and `while` in memory (30_encoding.md R74): a step runs the instruction that stands at PC, and the
labels are the idioms' own ends and start. -/

namespace Sys2Proof.Machine

variable {s : State} {m : OpMap} {mem : Memory} {i : Instr} {base : Nat} {cond body code : List Instr}

/-! ### Code in memory -/

@[simp] theorem codeBytes_cons (i : Instr) (rest : List Instr) : codeBytes (i :: rest) = codeBytes rest + 2 := rfl

@[simp] theorem codeBytes_append (first second : List Instr) :
    codeBytes (first ++ second) = codeBytes first + codeBytes second := by
  simp [codeBytes, Nat.mul_add]

@[simp] theorem codeBytes_nil : codeBytes [] = 0 := rfl

/-- The bytes behind the first part of a code decode to the instruction that follows it. -/
theorem decode_of_codeAt {a : Nat} {first rest : List Instr} (h : codeAt m mem a (first ++ i :: rest) = true) :
    decode m (mem.read (a + codeBytes first)) (mem.read (a + codeBytes first + 1)) = .instr i := by
  simp only [codeAt_append, codeAt, Bool.and_eq_true, beq_iff_eq] at h
  obtain ⟨-, hdec, -⟩ := h
  exact hdec

/-- A step in which the engine runs and is to move executes the instruction that its two bytes decode to. -/
theorem step_of_decode (hmove : s.engineToMove) (hrun : s.run = true) (hpc : s.pc.toNat + 1 < s.cfg.memSize)
    (hdec : decode s.cfg.opmap (s.mem.read s.pc.toNat) (s.mem.read (s.pc.toNat + 1)) = .instr i) :
    step s = exec i ((s.setTurns s.turns.tail).fetched (s.mem.read s.pc.toNat) (s.mem.read (s.pc.toNat + 1))) := by
  rw [step_of_engineToMove hmove, engineStep_eq]
  simp [hrun, Nat.not_le.mpr hpc, dispatch, hdec]

/-! ### Jumps -/

/-- The state after an engine step that only goes to a target: PC, the trace and the schedule have changed. -/
def State.wentTo (target : Nat) (s : State) : State :=
  { s with
    pc := BitVec.ofNat 16 target
    out := s.out ++ [.trace s.pc (s.mem.read s.pc.toNat) (s.mem.read (s.pc.toNat + 1))]
    turns := s.turns.tail }

theorem jumpTarget_ofNat {a : Nat} (h : a ≤ 255) : jumpTarget (BitVec.ofNat 8 a) = BitVec.ofNat 16 a := by
  apply BitVec.eq_of_toNat_eq
  simp only [jumpTarget_toNat, BitVec.toNat_ofNat]
  omega

theorem advancedPc_eq_ofNat (pc : Addr) : advancedPc pc = BitVec.ofNat 16 (pc.toNat + 2) := by
  apply BitVec.eq_of_toNat_eq
  simp

theorem isZero_iff (v : Byte) : isZero v = true ↔ v.toNat = 0 := by
  rw [isZero, beq_iff_eq, ← BitVec.toNat_inj]
  rfl

@[simp] theorem State.fetched_acc (opcode opnd : Byte) : (s.fetched opcode opnd).acc = s.acc := rfl

section Steps

variable {first rest : List Instr} {target : Nat}
variable (hmove : s.engineToMove) (hrun : s.run = true) (hsize : 256 ≤ s.cfg.memSize) (ht : target ≤ 255)
variable (hpc : s.pc.toNat = base + codeBytes first) (hlow : s.pc.toNat ≤ 254)
include hmove hrun hsize ht hpc hlow

/-- The step at a `JMP` goes to its label. -/
theorem step_at_jmp (hcode : codeAt s.cfg.opmap s.mem base (first ++ .jmp (BitVec.ofNat 8 target) :: rest) = true) :
    step s = .next (s.wentTo target) := by
  have hdec := decode_of_codeAt hcode
  rw [← hpc] at hdec
  rw [step_of_decode hmove hrun (by omega) hdec]
  simp only [exec, execJmp, jumpTarget_ofNat ht]
  rfl

/-- The step at a `JZ` goes to its label when ACC is 0, and on otherwise. -/
theorem step_at_jz (hcode : codeAt s.cfg.opmap s.mem base (first ++ .jz (BitVec.ofNat 8 target) :: rest) = true) :
    step s = .next (s.wentTo (if s.acc.toNat = 0 then target else s.pc.toNat + 2)) := by
  have hdec := decode_of_codeAt hcode
  rw [← hpc] at hdec
  rw [step_of_decode hmove hrun (by omega) hdec]
  simp only [exec, execJz, isZero_iff, jumpTarget_ofNat ht, State.fetched_acc, State.setTurns_acc]
  by_cases hzero : s.acc.toNat = 0
  · rw [if_pos hzero, if_pos hzero]
    rfl
  · rw [if_neg hzero, if_neg hzero, State.wentTo, ← advancedPc_eq_ofNat]
    rfl

end Steps

/-! ### The idioms' code -/

/-- An `if` is its condition, a `JZ` to the end of the whole, and its body; the end is a byte. -/
theorem ifIdiom_eq_some (h : ifIdiom base cond body = some code) :
    ∃ label, code = cond ++ .jz (BitVec.ofNat 8 label) :: body ∧ label = base + codeBytes code ∧ label ≤ 255 := by
  unfold ifIdiom at h
  split at h
  case h_1 skip hskip =>
    obtain ⟨hle, rfl⟩ := labelByte_eq_some.mp hskip
    obtain rfl := Option.some.inj h
    exact ⟨_, rfl, by simp only [codeBytes_append, codeBytes_cons]; omega, hle⟩
  case h_2 => cases h

/-- A `while` is its condition, a `JZ` to the end of the whole, its body and a `JMP` to the start; the end is a byte. -/
theorem whileIdiom_eq_some (h : whileIdiom base cond body = some code) :
    ∃ label, code = cond ++ .jz (BitVec.ofNat 8 label) :: body ++ [.jmp (BitVec.ofNat 8 base)] ∧
      label = base + codeBytes code ∧ label ≤ 255 := by
  unfold whileIdiom at h
  split at h
  case h_1 loopStart loopEnd hstart hend =>
    obtain ⟨-, rfl⟩ := labelByte_eq_some.mp hstart
    obtain ⟨hle, rfl⟩ := labelByte_eq_some.mp hend
    obtain rfl := Option.some.inj h
    exact ⟨_, rfl, by simp only [codeBytes_append, codeBytes_cons, codeBytes_nil]; omega, hle⟩
  case h_2 => cases h

theorem ifIdiom_eq_none : ifIdiom base cond body = none ↔ 255 < base + codeBytes cond + 2 + codeBytes body := by
  rw [← labelByte_eq_none, ifIdiom]
  cases labelByte _ <;> simp

/-- The start of a `while` lies before its end, so that the end's label decides. -/
theorem whileIdiom_eq_none :
    whileIdiom base cond body = none ↔ 255 < base + codeBytes cond + 2 + codeBytes body + 2 := by
  rw [← labelByte_eq_none, whileIdiom]
  cases hend : labelByte (base + codeBytes cond + 2 + codeBytes body + 2) with
  | none => simp
  | some loopEnd =>
    obtain ⟨hle, -⟩ := labelByte_eq_some.mp hend
    have hstart : labelByte base = some (BitVec.ofNat 8 base) := labelByte_eq_some.mpr ⟨by omega, rfl⟩
    simp [hstart]

/-- Settles O57: the jumps stand behind the condition and behind a `while`'s body, and their labels are the code's ends. -/
theorem controlIdiomsJumpByTheCondition : Obligations.ControlIdiomsJumpByTheCondition := by
  intro base cond body s hmove hrun hsize
  refine ⟨fun code hif hcode hpc => ?_, fun code hwhile hcode => ?_, ifIdiom_eq_none, whileIdiom_eq_none⟩
  · obtain ⟨label, rfl, hlabel, hle⟩ := ifIdiom_eq_some hif
    have hbytes : label = base + (codeBytes cond + (codeBytes body + 2)) := by simpa using hlabel
    rw [← hlabel, ← hpc]
    exact step_at_jz hmove hrun hsize hle hpc (by omega) hcode
  · obtain ⟨label, rfl, hlabel, hle⟩ := whileIdiom_eq_some hwhile
    have hbytes : label = base + (codeBytes cond + (codeBytes body + 2 + 2)) := by simpa using hlabel
    refine ⟨fun hpc => ?_, fun hpc => ?_⟩
    · rw [← hlabel, ← hpc]
      rw [List.append_assoc] at hcode
      exact step_at_jz hmove hrun hsize hle hpc (by omega) hcode
    · have hjump : s.pc.toNat = base + codeBytes (cond ++ .jz (BitVec.ofNat 8 label) :: body) := by
        simp only [codeBytes_append, codeBytes_cons]
        omega
      exact step_at_jmp hmove hrun hsize (by omega) hjump (by omega) hcode

end Sys2Proof.Machine
end

section
/-! PROOFS. The engine cycle (40_engine_cycle.md R90 to R100): the three outcomes of a running engine's step, the four ways to
clear RUN, what a halted machine's moves can still change, and straight-line code run step by step. -/

namespace Sys2Proof.Machine

variable {s t u : State} {i : Instr}

/-! ### Decoding -/

/-- Two bytes are rejected exactly when the first is unmapped, and by its name (30_encoding.md R67). -/
theorem decode_eq_rejected {m : OpMap} {opcode opnd : Byte} {why : Reject} :
    decode m opcode opnd = .rejected why ↔ m.lookup opcode = none ∧ why = .unmappedOpcode opcode := by
  cases hk : m.lookup opcode with
  | none => simp [decode_of_lookup_none hk, eq_comm]
  | some k => simp [decode_of_lookup hk]

/-- An instruction is what its mnemonic makes of its operand byte. -/
theorem eq_make_of_mnemonic {k : Mnemonic} (h : i.mnemonic = k) : i = Instr.make k i.operand := h ▸ i.make_parts.symm

/-- Settles O5: both answers of the decoder are told by what the opcode byte looks up. -/
theorem decodeDependsOnTheOpcodeByteAlone : Obligations.DecodeDependsOnTheOpcodeByteAlone := by
  intro m opcode x y
  refine ⟨fun why h => decode_eq_rejected.mpr (decode_eq_rejected.mp h), fun i h => ?_⟩
  obtain ⟨hlookup, hopnd⟩ := decode_eq_instr.mp h
  exact ⟨hopnd, _, decode_of_lookup hlookup, Instr.mnemonic_make _ y, Instr.operand_make _ y⟩

/-! ### A step of a running engine -/

theorem advancedPc_eq (pc : Addr) : advancedPc pc = BitVec.ofNat 16 ((pc.toNat + 2) % 65536) := by
  apply BitVec.eq_of_toNat_eq
  simp

/-- Settles O36: the engine's turn is taken, and the fetched state has PC advanced and the trace emitted. -/
theorem stepRunsTheDecodedInstruction : Obligations.StepRunsTheDecodedInstruction := by
  intro s i hmove hrun hpc hdec
  rw [step_of_decode hmove hrun hpc hdec, ← advancedPc_eq]
  rfl

/-- Settles O37: two bytes that are rejected are dispatched to the stop with a report. -/
theorem unmappedOpcodeReportsAndHalts : Obligations.UnmappedOpcodeReportsAndHalts := by
  intro s why hmove hrun hpc hdec
  have hstep : step s = .next ((s.setTurns s.turns.tail).stopUnmapped (s.mem.read s.pc.toNat)) := by
    rw [step_of_engineToMove hmove, engineStep_eq]
    simp [hrun, Nat.not_le.mpr hpc, dispatch, hdec]
  rw [hstep, ← advancedPc_eq]
  rfl

/-- Settles O38: the end-of-memory test stands before the fetch. -/
theorem endOfMemoryHaltsQuietly : Obligations.EndOfMemoryHaltsQuietly := by
  intro s hmove hrun hend
  have hstep : step s = .next ((s.setTurns s.turns.tail).halt .endOfMemory) := by
    rw [step_of_engineToMove hmove, engineStep_eq]
    simp [hrun, hend]
  exact hstep

/-! ### The four ways to stop -/

/-- The host clears RUN by its stop alone (40_engine_cycle.md R100). -/
theorem hostMove_clears_run {m : HostMove} (hrun : s.run = true) (h : (hostMove m s).run = false) :
    m = .stop ∧ (hostMove m s).haltCause = .hostStop := by
  cases m with
  | stop => simp [hostMove, hostStop, hrun]
  | pushCode c | pushKey k | resetDirty => cases hrun.symm.trans h

/-- An instruction that clears RUN is `HLT`, and records so (41_control.md R118). -/
theorem exec_clears_run (hexec : exec i s = .next t) (hrun : s.run = true) (h : t.run = false) :
    (∃ x, i = .hlt x) ∧ t.haltCause = .hlt := by
  cases exec_next_effect hexec with
  | halt hk => exact ⟨⟨i.operand, eq_make_of_mnemonic hk⟩, rfl⟩
  | _ => cases hrun.symm.trans h

/-- Settles O40: each way a step can go is one of the four, or leaves RUN as it was. -/
theorem engineStopsInOnlyFourWays : Obligations.EngineStopsInOnlyFourWays := by
  intro s t hrun hstep hstop
  obtain ⟨m, rest, hturns, hm⟩ | ⟨hmove, he⟩ := step_eq s
  · obtain rfl := Host.Outcome.next.inj (hm.symm.trans hstep)
    obtain ⟨rfl, hcause⟩ := hostMove_clears_run (s := s.setTurns rest) hrun hstop
    exact .inl ⟨by rw [hturns]; rfl, hcause⟩
  · obtain ⟨hhalted, -⟩ | ⟨-, hend, rfl⟩ | ⟨-, hpc, ⟨why, hdec, rfl⟩ | ⟨i, hdec, hexec⟩⟩ :=
      engineStep_next (he.symm.trans hstep)
    · cases hrun.symm.trans hhalted
    · exact .inr (.inl ⟨hmove, hend, rfl⟩)
    · exact .inr (.inr (.inl ⟨hmove, hpc, rfl, why, hdec⟩))
    · obtain ⟨⟨x, rfl⟩, hcause⟩ := exec_clears_run hexec hrun hstop
      exact .inr (.inr (.inr ⟨hmove, hpc, hcause, x, hdec⟩))

/-! ### After a halt -/

/-- What moves after a halt can make of `s`: keys pushed at the back of the queue, another dirty flag and schedule
(40_engine_cycle.md R99, R100). -/
def AfterHalt (s t : State) : Prop :=
  ∃ (q : List Byte) (d : Bool) (ts : List Turn),
    t = { s with inq := s.inq ++ q, fb := { s.fb with dirty := d }, turns := ts }

theorem AfterHalt.push (s : State) (ts : List Turn) (q : List Byte) :
    AfterHalt s ((s.setTurns ts).setInq (s.inq ++ q)) :=
  ⟨q, s.fb.dirty, ts, rfl⟩

theorem AfterHalt.setTurns (s : State) (ts : List Turn) : AfterHalt s (s.setTurns ts) := by
  have h := AfterHalt.push s ts []
  rwa [List.append_nil] at h

theorem AfterHalt.refl (s : State) : AfterHalt s s := .setTurns s s.turns

theorem AfterHalt.trans (h : AfterHalt s t) (h' : AfterHalt t u) : AfterHalt s u := by
  obtain ⟨q, d, ts, rfl⟩ := h
  obtain ⟨q', d', ts', rfl⟩ := h'
  exact ⟨q ++ q', d', ts', by rw [List.append_assoc]⟩

theorem AfterHalt.run_eq (h : AfterHalt s t) : t.run = s.run := by
  obtain ⟨q, d, ts, rfl⟩ := h
  rfl

/-- A host move on a halted machine pushes a key, resets the dirty flag, or does nothing: its stop has no effect then. -/
theorem hostMove_of_halted (hrun : s.run = false) (ts : List Turn) (m : HostMove) :
    AfterHalt s (hostMove m (s.setTurns ts)) := by
  cases m with
  | pushCode c => exact .push s ts [c]
  | pushKey k =>
    obtain ⟨q, hq⟩ := pushKey_eq k s.inq
    have h := AfterHalt.push s ts q
    rwa [← hq] at h
  | resetDirty => exact ⟨[], false, ts, by rw [List.append_nil]; rfl⟩
  | stop =>
    have hstop : hostMove .stop (s.setTurns ts) = s.setTurns ts := by simp [hostMove, hostStop, hrun]
    rw [hstop]
    exact .setTurns s ts

/-- A step of a halted machine completes: the host makes its move, or the engine does nothing. -/
theorem step_of_halted (hrun : s.run = false) : ∃ t, step s = .next t ∧ AfterHalt s t := by
  obtain ⟨m, rest, -, hm⟩ | ⟨-, he⟩ := step_eq s
  · exact ⟨_, hm, hostMove_of_halted hrun rest m⟩
  · exact ⟨s.setTurns s.turns.tail, by rw [he, engineStep_eq]; simp [hrun], .setTurns s _⟩

/-- Settles O41: the states after the halt each have a step, and it leads to one of them again. -/
theorem haltedIsTerminal : Obligations.HaltedIsTerminal := by
  intro k s hrun
  have hstep (u : State) (hu : AfterHalt s u) : ∃ t, step u = .next t ∧ AfterHalt s t := by
    obtain ⟨t, ht, hafter⟩ := step_of_halted (hu.run_eq.trans hrun)
    exact ⟨t, ht, hu.trans hafter⟩
  obtain ⟨t, ht, q, d, ts, rfl⟩ := run_answers_next hstep k (.refl s)
  exact ⟨q, d, ts, ht⟩

/-! ### An instruction at another place -/

/-- The state at another place of a run: PC and OUT replaced. -/
def State.placed (pc : Addr) (out : List Event) (s : State) : State := { s with pc := pc, out := out }

theorem reports_append (out out' : List Event) : reports (out ++ out') = reports out ++ reports out' :=
  List.filter_append ..

/-- From any other place with the same reports in OUT, `f` answers what it answers from `s`: the given PC stays, and OUT
holds the same reports again. -/
def IgnoresPlace (f : State → Host.Outcome State Fault Refusal) (s : State) : Prop :=
  ∀ pc out, reports out = reports s.out →
    NextOnly (fun t => ∃ out', f (s.placed pc out) = .next (t.placed pc out') ∧ reports out' = reports t.out) (f s)

/-- An operation that never fails and reports nothing ignores the place when it commutes with the change of place. -/
theorem IgnoresPlace.next {k : State → State} (hout : (k s).out = s.out)
    (hk : ∀ pc out, k (s.placed pc out) = (k s).placed pc out) : IgnoresPlace (fun s => .next (k s)) s :=
  fun pc out h => .next ⟨out, congrArg _ (hk pc out), h.trans (congrArg _ hout.symm)⟩

theorem IgnoresPlace.withData {opnd : Byte} {k : State → Byte → State} (hout : ∀ v, (k s v).out = s.out)
    (hk : ∀ pc out v, k (s.placed pc out) v = (k s v).placed pc out) :
    IgnoresPlace (fun s => withData opnd s (k s)) s := by
  intro pc out h t ht
  obtain ⟨hb, rfl⟩ := withData_next ht
  exact ⟨out, (withData_ok (s := s.placed pc out) hb).trans (congrArg _ (hk pc out _)), h.trans (congrArg _ (hout _).symm)⟩

theorem execStore_ignoresPlace (addr : Byte) (s : State) : IgnoresPlace (execStore addr) s := by
  intro pc out h t ht
  obtain ⟨hb, rfl⟩ := finish_writeData_next ht
  exact ⟨out, finish_writeData_ok (s := s.placed pc out) hb, h⟩

theorem execLogAdd_ignoresPlace (opnd : Byte) (s : State) : IgnoresPlace (execLogAdd opnd) s := by
  intro pc out
  cases hm : s.cfg.logAddMode with
  | imm =>
    rw [execLogAdd_imm opnd hm, execLogAdd_imm opnd (s := s.placed pc out) hm]
    exact IgnoresPlace.next (k := fun s => s.setLog (s.log + opnd)) rfl (fun _ _ => rfl) pc out
  | mem =>
    rw [execLogAdd_mem opnd hm, execLogAdd_mem opnd (s := s.placed pc out) hm]
    exact IgnoresPlace.withData (k := fun s v => s.setLog (s.log + v)) (fun _ => rfl) (fun _ _ _ => rfl) pc out

theorem execLogPrint_ignoresPlace (s : State) : IgnoresPlace execLogPrint s :=
  fun pc out h => .next ⟨out ++ [.logPrint s.log], rfl, by rw [reports_append, h]; exact (reports_append ..).symm⟩

/-- An instruction that neither jumps nor stops does the same at every place. -/
theorem exec_ignoresPlace (h : runsStraight i = true) (s : State) : IgnoresPlace (exec i) s :=
  match i with
  | .nop _ => .next rfl fun _ _ => rfl
  | .load _ | .add _ | .sub _ | .cmp _ | .gt _ | .lt _ => .withData (fun _ => rfl) fun _ _ _ => rfl
  | .store addr => execStore_ignoresPlace addr s
  | .jmp _ | .jz _ | .jnz _ | .hlt _ => absurd h (by simp [runsStraight, Instr.mnemonic])
  | .cmpVal _ | .gtVal _ | .ltVal _ | .notAcc _ => .next rfl fun _ _ => rfl
  | .setX _ | .setY _ | .setR _ | .setG _ | .setB _ => .next rfl fun _ _ => rfl
  | .setXFromAcc _ | .setYFromAcc _ | .setRFromAcc _ | .setGFromAcc _ | .setBFromAcc _ => .next rfl fun _ _ => rfl
  | .drawPixel _ | .clearScreen _ => .next rfl fun _ _ => rfl
  | .keyAvailable _ | .getKey _ | .peekKey _ | .logLoad _ | .logStore _ => .next rfl fun _ _ => rfl
  | .logAdd opnd => execLogAdd_ignoresPlace opnd s
  | .logPrint _ => execLogPrint_ignoresPlace s

/-! ### Straight-line code -/

/-- Code reads alike from two memories that agree on its bytes. -/
theorem codeAt_congr {m : OpMap} {mem mem' : Memory} {a : Nat} {code : List Instr}
    (h : ∀ b, a ≤ b → b < a + codeBytes code → mem'.read b = mem.read b) : codeAt m mem' a code = codeAt m mem a code := by
  induction code generalizing a with
  | nil => rfl
  | cons i rest ih =>
    rw [codeBytes_cons] at h
    rw [codeAt, codeAt, h a (by omega) (by omega), h (a + 1) (by omega) (by omega),
      ih fun b hlow hhigh => h b (by omega) (by omega)]

/-- Code without jumps, stops and stores into itself stands at `a` in a running machine with nothing scheduled. -/
structure ReadyToRun (a : Nat) (code : List Instr) (s : State) : Prop where
  turns_nil : s.turns = []
  running : s.run = true
  size_le : s.cfg.memSize ≤ 65536
  inside : a + codeBytes code ≤ s.cfg.memSize
  loaded : codeAt s.cfg.opmap s.mem a code = true
  straight : ∀ i ∈ code, runsStraight i = true
  no_self_store : ∀ b, .store b ∈ code → b.toNat < a ∨ a + codeBytes code ≤ b.toNat

theorem ne_hlt_of_runsStraight (h : runsStraight i = true) : i.mnemonic ≠ .HLT := by
  intro hk
  simp [runsStraight, hk] at h

/-- A cell that the instruction does not store to keeps its byte (20_memory.md R42). -/
theorem exec_read_of_not_stored {b : Nat} (hexec : exec i s = .next t) (h : ∀ c, i = .store c → c.toNat ≠ b) :
    t.mem.read b = s.mem.read b := by
  by_cases hk : i.mnemonic = .STORE
  · have hi : i = .store i.operand := eq_make_of_mnemonic hk
    rw [hi] at hexec
    obtain ⟨-, rfl⟩ := finish_writeData_next hexec
    rw [State.setMem_mem, Memory.read_write, if_neg (h _ hi).symm]
  · obtain ⟨-, -, hmem, -⟩ := onlyStoreWritesMemoryOnlyLogPrintReports i s t hexec
    obtain ⟨hmem, -⟩ := hmem hk
    rw [hmem]

/-- A sequence that completes completes its first instruction and then the rest. -/
theorem execAll_cons_next {rest : List Instr} (h : execAll (i :: rest) s = .next t) :
    ∃ u, exec i s = .next u ∧ execAll rest u = .next t := by
  cases hi : exec i s with
  | next u => exact ⟨u, rfl, (execAll_cons rest hi).symm.trans h⟩
  | fault f => simp [execAll, hi] at h
  | refused r => simp [execAll, hi] at h

/-- The first instruction of such code leaves the rest of it ready to run. -/
theorem ReadyToRun.tail {a : Nat} {rest : List Instr} (h : ReadyToRun a (i :: rest) s) (hexec : exec i s = .next t) :
    ReadyToRun (a + 2) rest t := by
  obtain ⟨hturns, hrun, hsize, hinside, hloaded, hstraight, hstore⟩ := h
  obtain ⟨hi, hrest⟩ := List.forall_mem_cons.mp hstraight
  obtain ⟨hcfg, hturns', -, -⟩ := onlyStoreWritesMemoryOnlyLogPrintReports i s t hexec
  obtain ⟨-, hrunning⟩ := pcAndRunHaveOnlyTheirWriters i s t hexec
  obtain ⟨hrun', -⟩ := hrunning (ne_hlt_of_runsStraight hi)
  rw [codeBytes_cons] at hinside hstore
  obtain ⟨-, hloaded⟩ := Bool.and_eq_true_iff.mp hloaded
  have hmem (b : Nat) (hlow : a + 2 ≤ b) (hhigh : b < a + 2 + codeBytes rest) : t.mem.read b = s.mem.read b :=
    exec_read_of_not_stored hexec fun c hc => by
      have := hstore c (hc ▸ List.mem_cons_self)
      omega
  exact {
    turns_nil := hturns'.trans hturns
    running := hrun'.trans hrun
    size_le := hcfg ▸ hsize
    inside := by rw [hcfg]; omega
    loaded := by rw [hcfg, codeAt_congr hmem]; exact hloaded
    straight := hrest
    no_self_store := fun b hb => by
      have := hstore b (List.mem_cons_of_mem _ hb)
      omega }

/-- The engine step at an address whose bytes decode to an instruction executes it at the next address. -/
theorem step_placed {a : Nat} {out : List Event} (hturns : s.turns = []) (hrun : s.run = true) (ha : a < 65536)
    (hinside : a + 1 < s.cfg.memSize) (hdec : decode s.cfg.opmap (s.mem.read a) (s.mem.read (a + 1)) = .instr i) :
    step (s.placed (BitVec.ofNat 16 a) out) =
      exec i (s.placed (BitVec.ofNat 16 (a + 2))
        (out ++ [.trace (BitVec.ofNat 16 a) (s.mem.read a) (s.mem.read (a + 1))])) := by
  have hpc : (s.placed (BitVec.ofNat 16 a) out).pc.toNat = a := Nat.mod_eq_of_lt ha
  have hmove : (s.placed (BitVec.ofNat 16 a) out).engineToMove := .inl (congrArg List.head? hturns)
  have htail : s.turns.tail = s.turns := by rw [hturns, List.tail_nil]
  rw [step_of_decode hmove hrun (by rwa [hpc]) (by rwa [hpc]), State.fetched, State.setTurns_pc, advancedPc_eq_ofNat, hpc]
  exact congrArg (fun ts => exec i ((s.placed _ _).setTurns ts)) htail

/-- The engine step at the first instruction of such code does what the instruction does, and goes to the next. -/
theorem ReadyToRun.step_next {a : Nat} {rest : List Instr} {out : List Event} (h : ReadyToRun a (i :: rest) s)
    (hout : reports out = reports s.out) (hexec : exec i s = .next t) :
    ∃ out', step (s.placed (BitVec.ofNat 16 a) out) = .next (t.placed (BitVec.ofNat 16 (a + 2)) out') ∧
      reports out' = reports t.out := by
  obtain ⟨hturns, hrun, hsize, hinside, hloaded, hstraight, -⟩ := h
  rw [codeBytes_cons] at hinside
  obtain ⟨hdec, -⟩ := Bool.and_eq_true_iff.mp hloaded
  rw [step_placed hturns hrun (by omega) (by omega) (beq_iff_eq.mp hdec)]
  refine exec_ignoresPlace (hstraight i List.mem_cons_self) s _ _ ?_ t hexec
  rw [reports_append, hout]
  exact List.append_nil _

/-- Along such code the engine, at the code's address, goes through the same states as the instructions alone. -/
theorem ReadyToRun.run_placed {a : Nat} {code : List Instr} {out : List Event} (h : ReadyToRun a code s)
    (hout : reports out = reports s.out) (hexec : execAll code s = .next t) :
    ∃ out', Sys2Proof.core.run code.length (s.placed (BitVec.ofNat 16 a) out) =
        .next (t.placed (BitVec.ofNat 16 (a + codeBytes code)) out') ∧
      reports out' = reports t.out := by
  induction code generalizing a s out with
  | nil =>
    obtain rfl := Host.Outcome.next.inj hexec
    exact ⟨out, rfl, hout⟩
  | cons i rest ih =>
    obtain ⟨u, hi, hrest⟩ := execAll_cons_next hexec
    obtain ⟨out', hstep, hout'⟩ := h.step_next hout hi
    obtain ⟨out'', hrun, hout''⟩ := ih (h.tail hi) hout' hrest
    refine ⟨out'', ?_, hout''⟩
    rw [List.length_cons, run_succ_of_step _ hstep, hrun, codeBytes_cons, Nat.add_assoc, Nat.add_comm 2]

/-- Settles O58: by induction on the code (`ReadyToRun.run_placed`), from the place where the state itself stands. -/
theorem straightLineCodeRunsAsItsInstructions : Obligations.StraightLineCodeRunsAsItsInstructions := by
  intro code s t hturns hrun hsize hinside hloaded hstraight hstore hexec
  have hready : ReadyToRun s.pc.toNat code s := ⟨hturns, hrun, hsize, hinside, hloaded, hstraight, hstore⟩
  have hplace : s.placed (BitVec.ofNat 16 s.pc.toNat) s.out = s := by rw [BitVec.ofNat_toNat, BitVec.setWidth_eq]; rfl
  obtain ⟨out, hrun, hout⟩ := hready.run_placed rfl hexec
  rw [hplace] at hrun
  exact ⟨out, hrun, hout⟩

end Sys2Proof.Machine
end

section
/-! PROOFS. Control, load/store and arithmetic (41_control.md R110 to R118): what each instruction writes, and that it writes
nothing else. -/

namespace Sys2Proof.Machine

variable {s : State}

/-! ### No operation and stop -/

/-- Settles O6: the meaning of `NOP` receives no operand byte and answers the state as it was. -/
theorem nopChangesNothing : Obligations.NopChangesNothing := fun _ _ => rfl

/-- Settles O11: the meaning of `HLT` receives no operand byte and is the shared stop with the cause `hlt`. -/
theorem hltClearsRunWithItsCause : Obligations.HltClearsRunWithItsCause := fun _ _ => rfl

/-! ### Memory and arithmetic -/

/-- Settles O7: the data access is inside memory, so the read answers the cell's byte. -/
theorem loadPutsItsCellInAcc : Obligations.LoadPutsItsCellInAcc := fun _ _ h => exec_load h

/-- Settles O8: the new memory is the old one after one write, at the zero-extended operand. -/
theorem storePutsAccInItsCellOnly : Obligations.StorePutsAccInItsCellOnly := by
  intro a s h
  rw [dataAddress_eq] at h ⊢
  refine ⟨rfl, s.mem.write a.toNat s.acc, exec_store h, ?_, fun b hb => ?_⟩
  · rw [Memory.read_write, if_pos rfl]
  · rw [Memory.read_write, if_neg hb]

/-- Settles O9: sum and difference of bytes are the numbers' modulo 256. -/
theorem addAndSubWrapModulo256 : Obligations.AddAndSubWrapModulo256 := by
  intro a s h
  rw [ofNat_sum, ofNat_difference]
  exact ⟨exec_add h, exec_sub h⟩

/-! ### Jumps -/

/-- A jump's target is the operand's number as an address (41_control.md R120). -/
theorem jumpTarget_eq_ofNat (opnd : Byte) : jumpTarget opnd = BitVec.ofNat 16 opnd.toNat :=
  (BitVec.ofNat_toNat 16 opnd).symm

theorem exec_jmp (target : Byte) : exec (.jmp target) s = .next (s.setPc (jumpTarget target)) := rfl

theorem exec_jz (target : Byte) :
    exec (.jz target) s = .next (if s.acc.toNat = 0 then s.setPc (jumpTarget target) else s) := by
  simp only [exec, execJz, isZero_iff]

theorem exec_jnz (target : Byte) :
    exec (.jnz target) s = .next (if s.acc.toNat = 0 then s else s.setPc (jumpTarget target)) := by
  simp only [exec, execJnz, isZero_iff]

/-- Settles O10: a taken jump writes its target to PC, and an untaken one answers the state as it was. -/
theorem jumpsWriteTheZeroExtendedTarget : Obligations.JumpsWriteTheZeroExtendedTarget := by
  intro a s
  rw [← jumpTarget_eq_ofNat, exec_jmp, exec_jz, exec_jnz]
  refine ⟨rfl, fun hzero => ?_, fun hnonzero => ?_⟩
  · rw [if_pos hzero, if_pos hzero]
    exact ⟨rfl, rfl⟩
  · rw [if_neg hnonzero, if_neg hnonzero]
    exact ⟨rfl, rfl⟩

end Sys2Proof.Machine
end

section
/-! PROOFS. Comparisons (42_compare.md R130 to R137): the truth value of each, as the byte that ACC receives. A compare with
a cell and one with the operand byte are the two forms of one compare (`exec_relationCompare`), so each is told once. -/

namespace Sys2Proof.Machine

variable {s : State} {k : RightSide}

/-! ### Truth values as bytes -/

theorem boolByte_differs (a b : Byte) : boolByte (differs a b) = if a.toNat = b.toNat then 0 else 1 := by
  simp only [boolByte_eq, differs_eq, decide_eq_true_iff, ite_not]

theorem boolByte_greater (a b : Byte) : boolByte (greater a b) = if b.toNat < a.toNat then 1 else 0 := by
  simp only [boolByte_eq, greater, decide_eq_true_iff]

theorem boolByte_less (a b : Byte) : boolByte (less a b) = if a.toNat < b.toNat then 1 else 0 := by
  simp only [boolByte_eq, less, decide_eq_true_iff]

theorem boolByte_isZero (a : Byte) : boolByte (isZero a) = if a.toNat = 0 then 1 else 0 := by
  simp only [boolByte_eq, isZero_iff]

/-! ### Compares -/

/-- The three compares, with a right-hand side of either form. -/
theorem exec_compares_unsigned (h : rightSideInMemory s k) :
    exec (relationCompare .ne k) s =
        .next (s.setAcc (if s.acc.toNat = (rightSideValue s k).toNat then 0 else 1)) ∧
      exec (relationCompare .gt k) s =
        .next (s.setAcc (if (rightSideValue s k).toNat < s.acc.toNat then 1 else 0)) ∧
      exec (relationCompare .lt k) s =
        .next (s.setAcc (if s.acc.toNat < (rightSideValue s k).toNat then 1 else 0)) := by
  rw [← boolByte_differs, ← boolByte_greater, ← boolByte_less]
  exact ⟨exec_relationCompare .ne h, exec_relationCompare .gt h, exec_relationCompare .lt h⟩

/-- Settles O13: the right-hand side is the cell, which is inside memory. -/
theorem memoryComparisonsAreUnsigned : Obligations.MemoryComparisonsAreUnsigned :=
  fun a _ h => exec_compares_unsigned (k := .cell a) h

/-- Settles O14: the right-hand side is the operand byte, which needs no memory. -/
theorem immediateComparisonsAreUnsigned : Obligations.ImmediateComparisonsAreUnsigned :=
  fun v _ => exec_compares_unsigned (k := .literal v) trivial

/-- Settles O15: the meaning of `NOT` receives no operand byte and is the zero test of ACC. -/
theorem notIsLogicalNegation : Obligations.NotIsLogicalNegation := by
  intro x s
  rw [← boolByte_isZero]
  rfl

end Sys2Proof.Machine
end

section
/-! PROOFS. The display instructions (43_display.md R150 to R168): what each writes of the device, and how the byte writes
that `draw_pixel` and `clear` are made of look to the renderer between two of them (93_implementation_defined.md U19). The three
bytes of a cell are alike, so each fact about a byte write is told once, over its component. -/

namespace Sys2Proof.Machine

variable {w h : Nat} {fb : Framebuffer}

/-! ### The instructions -/

/-- Settles O18: one immediate register set for each of the five registers. -/
theorem setInstructionsLoadTheOperand : Obligations.SetInstructionsLoadTheOperand := fun v s =>
  ⟨exec_setImmediate .x v s, exec_setImmediate .y v s, exec_setImmediate .r v s, exec_setImmediate .g v s,
    exec_setImmediate .b v s⟩

/-- Settles O19: one register set from ACC for each of the five registers; none of their meanings receives the operand byte. -/
theorem setFromAccInstructionsLoadAcc : Obligations.SetFromAccInstructionsLoadAcc := fun _ s =>
  ⟨exec_setFromAcc .x s, exec_setFromAcc .y s, exec_setFromAcc .r s, exec_setFromAcc .g s, exec_setFromAcc .b s⟩

/-- Settles O20: in bounds the device makes one grid write, and off the grid it is left alone. -/
theorem drawPixelWritesOneCellOnlyInBounds : Obligations.DrawPixelWritesOneCellOnlyInBounds := by
  intro ignored s
  rw [exec_drawPixel, State.drawn]
  refine ⟨fun hin => ?_, fun hout => ?_⟩
  · rw [Framebuffer.drawPixel_inside hin]
    exact ⟨_, rfl, Framebuffer.getPixel_write { s.fb with dirty := true } hin.1 hin.2 _⟩
  · rw [Framebuffer.drawPixel_outside fun ⟨hx, hy⟩ => hout.elim hx.not_ge hy.not_ge]
    rfl

theorem exec_clearScreen (ignored : Byte) (s : State) : exec (.clearScreen ignored) s = .next (s.setFb s.fb.clear) := rfl

@[simp] theorem Framebuffer.getPixel_clear (fb : Framebuffer) (x y : Nat) : fb.clear.getPixel w h x y = Pixel.black :=
  ite_self _

/-- Settles O21: the device is cleared and nothing else is written. -/
theorem clearScreenBlackensEveryPixel : Obligations.ClearScreenBlackensEveryPixel := fun ignored s =>
  ⟨s.fb.clear.grid, exec_clearScreen ignored s, Framebuffer.getPixel_clear s.fb⟩

/-! ### Writes to sparse data -/

section Sparse

variable {α : Type} {d : α} {m : List (Nat × α)}

/-- What is read is the unlisted value or a listed one. -/
theorem sparseRead_eq_default_or_mem (d : α) (m : List (Nat × α)) (k : Nat) :
    sparseRead d m k = d ∨ (k, sparseRead d m k) ∈ m := by
  induction m with
  | nil => exact .inl rfl
  | cons e m ih =>
    by_cases hk : e.1 = k
    · subst hk
      simp [sparseRead]
    · simpa [sparseRead, hk] using ih.imp_right Or.inr

theorem sparseErase_insert_same (k : Nat) (v : α) (m : List (Nat × α)) :
    sparseErase (sparseInsert k v m) k = sparseErase m k := by
  induction m with
  | nil => simp [sparseErase, sparseInsert]
  | cons e m ih =>
    by_cases hk : k < e.1
    · simp [sparseErase, sparseInsert, hk]
    · simp only [sparseInsert, hk, if_false]
      simp only [sparseErase, List.filter_cons] at ih ⊢
      rw [ih]

theorem sparseErase_erase_same (m : List (Nat × α)) (k : Nat) : sparseErase (sparseErase m k) k = sparseErase m k :=
  List.filter_eq_self.mpr fun e he => bne_iff_ne.mpr (sparseErase_no_key m k e he)

variable [DecidableEq α]

/-- The second of two writes under one key undoes the first, in any list. -/
theorem sparseWrite_write_same (d : α) (m : List (Nat × α)) (k : Nat) (u v : α) :
    sparseWrite d (sparseWrite d m k u) k v = sparseWrite d m k v := by
  have herase : sparseErase (sparseWrite d m k u) k = sparseErase m k := by
    unfold sparseWrite
    split
    · exact sparseErase_erase_same m k
    · rw [sparseErase_insert_same, sparseErase_erase_same]
  rw [sparseWrite, herase, sparseWrite]

/-- What a write leaves listed: its own pair, unless it is the unlisted value, and the pairs under other keys. -/
theorem eq_or_mem_of_mem_sparseWrite {k : Nat} {v : α} {e : Nat × α} (he : e ∈ sparseWrite d m k v) :
    (e = (k, v) ∧ v ≠ d) ∨ (e.1 ≠ k ∧ e ∈ m) := by
  have hold (h : e ∈ sparseErase m k) : e.1 ≠ k ∧ e ∈ m := ⟨sparseErase_no_key m k e h, List.mem_of_mem_filter h⟩
  unfold sparseWrite at he
  split at he
  · exact .inr (hold he)
  · next hv => exact (mem_sparseInsert.mp he).imp (⟨·, hv⟩) hold

end Sparse

/-! ### One byte write -/

/-- A component's byte in a pixel. -/
def Component.part : Component → Pixel → Byte
  | .red, p => p.r
  | .green, p => p.g
  | .blue, p => p.b

/-- The pixel with a component's byte replaced. -/
def Component.put : Component → Byte → Pixel → Pixel
  | .red, v, p => { p with r := v }
  | .green, v, p => { p with g := v }
  | .blue, v, p => { p with b := v }

theorem Component.part_put (c c' : Component) (v : Byte) (p : Pixel) :
    c.part (c'.put v p) = if c = c' then v else c.part p := by
  cases c <;> cases c' <;> rfl

@[simp] theorem Component.part_black (c : Component) : c.part Pixel.black = 0 := by
  cases c <;> rfl

theorem Pixel.ext_parts {p q : Pixel} (hparts : ∀ c : Component, c.part p = c.part q) : p = q := by
  rw [Pixel.mk.injEq]
  exact ⟨hparts .red, hparts .green, hparts .blue⟩

/-- The write of one component's byte to one cell. -/
def byteWrite (x y : Nat) (v : Byte) : Component → FbWrite
  | .red => .red x y v
  | .green => .green x y v
  | .blue => .blue x y v

theorem zeroWrite_eq (c : Component) (x y : Nat) : zeroWrite (c, x, y) = byteWrite x y 0 c := by
  cases c <;> rfl

theorem Framebuffer.applyWrite_byteWrite (fb : Framebuffer) (x y : Nat) (v : Byte) (c : Component) :
    fb.applyWrite w (byteWrite x y v c) = fb.updateCell w x y (c.put v) := by
  cases c <;> rfl

/-- `get_pixel` after a cell of the grid was replaced by a function of itself. -/
theorem Framebuffer.getPixel_updateCell (fb : Framebuffer) {x y : Nat} (hx : x < w) (hy : y < h) (f : Pixel → Pixel)
    (x' y' : Nat) :
    (fb.updateCell w x y f).getPixel w h x' y' =
      if x' = x ∧ y' = y then f (fb.getPixel w h x y) else fb.getPixel w h x' y' := by
  have hcell : fb.getPixel w h x y = sparseRead Pixel.black fb.grid (cellKey w x y) := if_pos ⟨hx, hy⟩
  rw [hcell]
  exact fb.getPixel_write hx hy _ x' y'

theorem Framebuffer.updateCell_updateCell_same (fb : Framebuffer) (x y : Nat) (f g : Pixel → Pixel) :
    (fb.updateCell w x y f).updateCell w x y g = fb.updateCell w x y (fun p => g (f p)) := by
  simp only [Framebuffer.updateCell, sparseRead_write, if_true, sparseWrite_write_same]

/-! ### Sequences of byte writes -/

theorem Framebuffer.applyWrites_append (fb : Framebuffer) (us vs : List FbWrite) :
    fb.applyWrites w (us ++ vs) = (fb.applyWrites w us).applyWrites w vs := List.foldl_append

theorem Framebuffer.applyWrites_then_setDirty (fb : Framebuffer) (ws : List FbWrite) :
    fb.applyWrites w (ws ++ [FbWrite.setDirty]) = { fb.applyWrites w ws with dirty := true } :=
  fb.applyWrites_append ws [FbWrite.setDirty]

/-- What every write of a sequence keeps, the sequence keeps. -/
theorem Framebuffer.applyWrites_keeps {ws : List FbWrite} (p : Framebuffer → Prop)
    (hkeep : ∀ f, ∀ u ∈ ws, p f → p (f.applyWrite w u)) (hp : p fb) : p (fb.applyWrites w ws) :=
  ws.foldlRecOn _ hp fun f hf u hu => hkeep f u hu hf

/-- The writes of one byte of a picture to its cell, inside the grid. -/
inductive BringsByteOf (w h : Nat) (picture : Nat → Nat → Pixel) : FbWrite → Prop
  | intro {x y : Nat} (c : Component) (hx : x < w) (hy : y < h) :
    BringsByteOf w h picture (byteWrite x y (c.part (picture x y)) c)

/-- Every component of `seen` is that of `old` or that of `new` (93_implementation_defined.md U19). -/
def Torn (old new seen : Pixel) : Prop := ∀ c : Component, tornByte (c.part old) (c.part new) (c.part seen) = true

theorem Torn.refl (old new : Pixel) : Torn old new old := fun c => by simp [tornByte]

/-- A component that took its new byte leaves the pixel torn between the same two. -/
theorem Torn.put {old new seen : Pixel} (htorn : Torn old new seen) (c : Component) :
    Torn old new (c.put (c.part new) seen) := by
  intro c'
  rw [Component.part_put]
  split
  · next heq => simp [tornByte, heq]
  · exact htorn c'

variable {picture : Nat → Nat → Pixel} {ws : List FbWrite}

theorem Framebuffer.applyWrite_torn {u : FbWrite} (hu : BringsByteOf w h picture u) {x y : Nat} {old : Pixel}
    (htorn : Torn old (picture x y) (fb.getPixel w h x y)) :
    Torn old (picture x y) ((fb.applyWrite w u).getPixel w h x y) := by
  obtain ⟨c, hx, hy⟩ := hu
  rw [Framebuffer.applyWrite_byteWrite, Framebuffer.getPixel_updateCell _ hx hy]
  split
  · next heq =>
    obtain ⟨rfl, rfl⟩ := heq
    exact htorn.put c
  · exact htorn

theorem Framebuffer.applyWrites_torn (hws : ∀ u ∈ ws, BringsByteOf w h picture u) (x y : Nat) :
    Torn (fb.getPixel w h x y) (picture x y) ((fb.applyWrites w ws).getPixel w h x y) :=
  Framebuffer.applyWrites_keeps (fun f => Torn (fb.getPixel w h x y) (picture x y) (f.getPixel w h x y))
    (fun _ u hu => Framebuffer.applyWrite_torn (hws u hu)) (Torn.refl _ _)

theorem Framebuffer.applyWrites_dirty (hws : ∀ u ∈ ws, BringsByteOf w h picture u) :
    (fb.applyWrites w ws).dirty = fb.dirty := by
  refine Framebuffer.applyWrites_keeps (fun f => f.dirty = fb.dirty) (fun f u hu hf => ?_) rfl
  obtain ⟨c, -, -⟩ := hws u hu
  rw [Framebuffer.applyWrite_byteWrite]
  exact hf

/-- What the renderer sees after any number of the byte writes of a picture and the flag behind them (43_display.md R168):
old or new components, and the old flag before the last write. -/
theorem Framebuffer.byteWrites_then_flag_seen (hws : ∀ u ∈ ws, BringsByteOf w h picture u) (n x y : Nat) :
    let seen := fb.applyWrites w ((ws ++ [FbWrite.setDirty]).take n)
    Torn (fb.getPixel w h x y) (picture x y) (seen.getPixel w h x y) ∧
      (n < (ws ++ [FbWrite.setDirty]).length → seen.dirty = fb.dirty) := by
  by_cases hn : n ≤ ws.length
  · have htake : ∀ u ∈ ws.take n, BringsByteOf w h picture u := fun u hu => hws u (List.mem_of_mem_take hu)
    rw [List.take_append_of_le_length hn]
    exact ⟨Framebuffer.applyWrites_torn htake x y, fun _ => Framebuffer.applyWrites_dirty htake⟩
  · have hlength : (ws ++ [FbWrite.setDirty]).length ≤ n := by
      rw [List.length_append]
      exact Nat.not_le.mp hn
    rw [List.take_of_length_le hlength, Framebuffer.applyWrites_then_setDirty]
    exact ⟨Framebuffer.applyWrites_torn hws x y, fun hlt => absurd hlt hlength.not_gt⟩

/-! ### The writes of `draw_pixel` -/

/-- The byte writes of `draw_pixel`, without the flag. -/
def Framebuffer.colourWrites (fb : Framebuffer) : List FbWrite :=
  [.red fb.x.toNat fb.y.toNat fb.r, .green fb.x.toNat fb.y.toNat fb.g, .blue fb.x.toNat fb.y.toNat fb.b]

theorem Framebuffer.drawWrites_inside (hin : fb.x.toNat < w ∧ fb.y.toNat < h) :
    fb.drawWrites w h = fb.colourWrites ++ [FbWrite.setDirty] := if_pos (fb.inBounds_iff.mpr hin)

theorem Framebuffer.drawWrites_outside (hout : ¬ (fb.x.toNat < w ∧ fb.y.toNat < h)) : fb.drawWrites w h = [] :=
  if_neg fun hin => hout (fb.inBounds_iff.mp hin)

/-- The three byte writes make one write of the whole cell. -/
theorem Framebuffer.applyWrites_colourWrites (fb : Framebuffer) :
    fb.applyWrites w fb.colourWrites = fb.updateCell w fb.x.toNat fb.y.toNat (fun _ => ⟨fb.r, fb.g, fb.b⟩) := by
  simp only [Framebuffer.colourWrites, Framebuffer.applyWrites, List.foldl_cons, List.foldl_nil, Framebuffer.applyWrite,
    Framebuffer.updateCell_updateCell_same]

theorem Framebuffer.applyWrites_drawWrites (fb : Framebuffer) : fb.applyWrites w (fb.drawWrites w h) = fb.drawPixel w h := by
  by_cases hin : fb.x.toNat < w ∧ fb.y.toNat < h
  · rw [Framebuffer.drawWrites_inside hin, Framebuffer.applyWrites_then_setDirty, Framebuffer.applyWrites_colourWrites,
      Framebuffer.drawPixel_inside hin]
    rfl
  · rw [Framebuffer.drawWrites_outside hin, Framebuffer.drawPixel_outside hin]
    rfl

/-- Each byte write of `draw_pixel` brings a byte of the picture that `draw_pixel` leaves. -/
theorem Framebuffer.colourWrites_bring (hin : fb.x.toNat < w ∧ fb.y.toNat < h) :
    ∀ u ∈ fb.colourWrites, BringsByteOf w h ((fb.drawPixel w h).getPixel w h) u := by
  have hcell : (fb.drawPixel w h).getPixel w h fb.x.toNat fb.y.toNat = ⟨fb.r, fb.g, fb.b⟩ := by
    rw [Framebuffer.drawPixel_inside hin]
    exact (Framebuffer.getPixel_write { fb with dirty := true } hin.1 hin.2 _ _ _).trans (if_pos ⟨rfl, rfl⟩)
  have hbring (c : Component) := BringsByteOf.intro (picture := (fb.drawPixel w h).getPixel w h) c hin.1 hin.2
  rw [hcell] at hbring
  simpa [Framebuffer.colourWrites] using ⟨hbring .red, hbring .green, hbring .blue⟩

/-- Settles O24: in bounds the writes are three bytes of the new picture and the flag; off the grid there are none. -/
theorem drawPixelIsItsByteWritesInOrder : Obligations.DrawPixelIsItsByteWritesInOrder := by
  intro w h fb
  refine ⟨fb.applyWrites_drawWrites, fun n x y => ?_⟩
  by_cases hin : fb.x.toNat < w ∧ fb.y.toNat < h
  · rw [Framebuffer.drawWrites_inside hin]
    obtain ⟨htorn, hdirty⟩ := Framebuffer.byteWrites_then_flag_seen (fb := fb) (Framebuffer.colourWrites_bring hin) n x y
    exact ⟨htorn .red, htorn .green, htorn .blue, hdirty⟩
  · rw [Framebuffer.drawWrites_outside hin, List.take_nil]
    have htorn := Torn.refl (fb.getPixel w h x y) ((fb.drawPixel w h).getPixel w h x y)
    exact ⟨htorn .red, htorn .green, htorn .blue, fun _ => rfl⟩

/-! ### The writes of `clear` -/

/-- The byte writes of `clear` bring bytes of the black picture. -/
theorem zeroWrites_bring {bytes : List (Component × Nat × Nat)} (hin : ∀ b ∈ bytes, b.2.1 < w ∧ b.2.2 < h) :
    ∀ u ∈ bytes.map zeroWrite, BringsByteOf w h (fun _ _ => Pixel.black) u := by
  intro u hu
  obtain ⟨⟨c, x, y⟩, hb, rfl⟩ := List.mem_map.mp hu
  obtain ⟨hx, hy⟩ := hin _ hb
  rw [zeroWrite_eq, ← c.part_black]
  exact .intro (picture := fun _ _ => Pixel.black) c hx hy

/-- No write touches a register, so what `clear` would leave is the same after it. -/
theorem Framebuffer.clear_applyWrites (fb : Framebuffer) (ws : List FbWrite) :
    (fb.applyWrites w ws).clear = fb.clear := by
  refine Framebuffer.applyWrites_keeps (fun f => f.clear = fb.clear) (fun f u _ hf => ?_) rfl
  rw [← hf]
  cases u <;> rfl

theorem Framebuffer.applyWrites_below (hws : ∀ u ∈ ws, BringsByteOf w h picture u)
    (hbelow : Grid.below fb.grid (w * h) = true) : Grid.below (fb.applyWrites w ws).grid (w * h) = true := by
  refine Framebuffer.applyWrites_keeps (fun f => Grid.below f.grid (w * h) = true) (fun f u hu hf => ?_) hbelow
  obtain ⟨c, hx, hy⟩ := hws u hu
  rw [Framebuffer.applyWrite_byteWrite]
  exact sparseWrite_below hf (cellKey_lt hx hy) _

/-- Whatever is listed under a key has 0 in the component, and is listed because of another one. -/
def Grid.ByteCleared (g : Grid) (k : Nat) (c : Component) : Prop :=
  ∀ e ∈ g, e.1 = k → c.part e.2 = 0 ∧ e.2 ≠ Pixel.black

/-- A zeroed byte is cleared, and a byte that was cleared stays so. -/
theorem Framebuffer.updateCell_zero_byteCleared (fb : Framebuffer) {x y k : Nat} {c c' : Component}
    (hcleared : (k = cellKey w x y ∧ c = c') ∨ Grid.ByteCleared fb.grid k c) :
    Grid.ByteCleared (fb.updateCell w x y (c'.put 0)).grid k c := by
  intro e he hk
  obtain ⟨rfl, hne⟩ | ⟨hother, hold⟩ := eq_or_mem_of_mem_sparseWrite he
  · refine ⟨?_, hne⟩
    rw [Component.part_put]
    split
    · rfl
    · next hc =>
      have hkept := hcleared.resolve_left fun hsame => hc hsame.2
      obtain hblack | hlisted := sparseRead_eq_default_or_mem Pixel.black fb.grid (cellKey w x y)
      · rw [hblack, Component.part_black]
      · exact (hkept _ hlisted hk).1
  · exact hcleared.resolve_left (fun hsame => hother (hk.trans hsame.1)) e hold hk

/-- After its zeroing writes every byte of a list is cleared. -/
theorem Framebuffer.applyWrites_zeroWrites_byteCleared {c : Component} {x y : Nat} (fb : Framebuffer)
    (bytes : List (Component × Nat × Nat))
    (hbyte : (c, x, y) ∈ bytes ∨ Grid.ByteCleared fb.grid (cellKey w x y) c) :
    Grid.ByteCleared (fb.applyWrites w (bytes.map zeroWrite)).grid (cellKey w x y) c := by
  induction bytes generalizing fb with
  | nil => exact hbyte.resolve_left List.not_mem_nil
  | cons b bytes ih =>
    obtain ⟨c', x', y'⟩ := b
    refine ih (fb.applyWrite w (zeroWrite (c', x', y'))) ?_
    rw [zeroWrite_eq, Framebuffer.applyWrite_byteWrite]
    obtain hmem | hold := hbyte
    · obtain hhead | htail := List.mem_cons.mp hmem
      · cases hhead
        exact .inr (fb.updateCell_zero_byteCleared (.inl ⟨rfl, rfl⟩))
      · exact .inl htail
    · exact .inr (fb.updateCell_zero_byteCleared (.inr hold))

theorem Framebuffer.setDirty_eq_clear (hgrid : fb.grid = []) : { fb with dirty := true } = fb.clear := by
  rw [Framebuffer.clear, ← hgrid]

/-- A grid below the bound with every byte of every cell cleared lists nothing. -/
theorem Grid.eq_nil_of_byteCleared {g : Grid} (hbelow : Grid.below g (w * h) = true)
    (hcleared : ∀ c x y, x < w → y < h → Grid.ByteCleared g (cellKey w x y) c) : g = [] := by
  refine List.eq_nil_iff_forall_not_mem.mpr fun e he => ?_
  have hkey : e.1 < w * h := of_decide_eq_true (List.all_eq_true.mp hbelow e he)
  have hw : 0 < w := Nat.pos_of_mul_pos_right (Nat.zero_lt_of_lt hkey)
  have hcell (c : Component) := hcleared c (e.1 % w) (e.1 / w) (Nat.mod_lt _ hw) (Nat.div_lt_of_lt_mul hkey) e he
    (Nat.div_add_mod' e.1 w).symm
  exact (hcell .red).2 (Pixel.ext_parts fun c => (hcell c).1.trans c.part_black.symm)

/-- Settles O25: the writes are bytes of the black picture and the flag; when they are all made, every cell's three bytes are
cleared, so the grid lists nothing. -/
theorem clearIsItsByteWritesInAnyOrder : Obligations.ClearIsItsByteWritesInAnyOrder := by
  intro w h fb bytes hin
  have hbring := zeroWrites_bring hin
  refine ⟨fun hbelow hall => ?_, fun n x y => ?_⟩
  · have hgrid : (fb.applyWrites w (bytes.map zeroWrite)).grid = [] :=
      Grid.eq_nil_of_byteCleared (Framebuffer.applyWrites_below hbring hbelow) fun c x y hx hy =>
        fb.applyWrites_zeroWrites_byteCleared bytes (.inl (hall c x y hx hy))
    rw [clearWrites, Framebuffer.applyWrites_then_setDirty, Framebuffer.setDirty_eq_clear hgrid,
      Framebuffer.clear_applyWrites]
  · obtain ⟨htorn, hdirty⟩ := Framebuffer.byteWrites_then_flag_seen (fb := fb) hbring n x y
    exact ⟨htorn .red, htorn .green, htorn .blue, hdirty⟩

end Sys2Proof.Machine
end

section
/-! PROOFS. The input queue (44_input.md R180 to R189): what the three key instructions do with it, and what the host's moves
do. The host only ever pushes at the back, so the front stays until a `GET_KEY` takes it. -/

namespace Sys2Proof.Machine

variable {s t : State} {c : Byte} {q : List Byte}

/-! ### The key instructions -/

theorem boolByte_hasKey (q : List Byte) : boolByte (hasKey q) = if q = [] then 0 else 1 := by
  cases q <;> rfl

theorem exec_keyAvailable (ignored : Byte) (s : State) :
    exec (.keyAvailable ignored) s = .next (s.setAcc (if s.inq = [] then 0 else 1)) := by
  rw [← boolByte_hasKey]
  rfl

/-- `PEEK_KEY` on a queue with known contents (44_input.md R184, R188). -/
theorem exec_peekKey (ignored : Byte) (hqueue : s.inq = q) :
    exec (.peekKey ignored) s = .next (s.setAcc (peekKey q)) := by
  subst hqueue
  rfl

/-- Settles O26: the two instructions write ACC alone, by whether the queue has a front. -/
theorem keyTestsLeaveTheQueue : Obligations.KeyTestsLeaveTheQueue := fun x s =>
  ⟨exec_keyAvailable x s, fun hempty => exec_peekKey x hempty, fun _ _ hqueue => exec_peekKey x hqueue⟩

/-- `GET_KEY` on a queue with known contents (44_input.md R183, R187). -/
theorem exec_getKey (ignored : Byte) (hqueue : s.inq = q) :
    exec (.getKey ignored) s = .next ((s.setAcc (popKey q)).setInq (popRest q)) := by
  subst hqueue
  rfl

/-- Settles O27: an empty queue pops the default and stays the queue it was. -/
theorem getKeyTakesTheFront : Obligations.GetKeyTakesTheFront := by
  refine fun x s => ⟨fun hempty => ?_, fun c q hqueue => exec_getKey x hqueue⟩
  have hpop : exec (.getKey x) s = .next ((s.setAcc 0).setInq []) := exec_getKey x hempty
  rw [hpop, ← hempty]
  rfl

/-! ### The host's moves -/

theorem hostStop_of_running (hrun : s.run = true) : hostStop s = s.halt .hostStop := if_pos hrun

theorem hostStop_of_halted (hrun : s.run = false) : hostStop s = s := if_neg (Bool.eq_false_iff.mp hrun)

/-- Settles O45: the schedule's head is the move that is made, on the state with the rest of the schedule. -/
theorem hostMovesDoOnlyTheirOwn : Obligations.HostMovesDoOnlyTheirOwn := by
  refine fun s rest => ⟨fun c h => step_of_host h, fun k h => step_of_host h, fun n h => step_of_host h,
    fun h => step_of_host h, fun h hrun => ?_, fun h hrun => ?_⟩
  · exact (step_of_host h).trans (congrArg _ (hostStop_of_running (s := s.setTurns rest) hrun))
  · exact (step_of_host h).trans (congrArg _ (hostStop_of_halted (s := s.setTurns rest) hrun))

/-- Pushes of codes append them to the queue in their order (44_input.md R181). -/
theorem foldl_hostMove_pushCode (cs : List Byte) (s : State) :
    cs.foldl (fun u k => hostMove (.pushCode k) u) s = s.setInq (s.inq ++ cs) := by
  induction cs generalizing s with
  | nil =>
    rw [List.foldl_nil, List.append_nil]
    rfl
  | cons c cs ih =>
    rw [List.foldl_cons, ih, ← List.singleton_append, ← List.append_assoc]
    rfl

/-- A host move takes nothing from the queue and puts nothing in front. -/
theorem inq_prefix_hostMove (m : HostMove) (s : State) : s.inq <+: (hostMove m s).inq := by
  cases m with
  | pushCode c => exact List.prefix_append ..
  | pushKey k =>
    obtain ⟨r, hr⟩ := pushKey_eq k s.inq
    exact ⟨r, hr.symm⟩
  | resetDirty => exact List.prefix_rfl
  | stop =>
    rw [hostMove, hostStop]
    split <;> exact List.prefix_rfl

theorem inq_prefix_hostMoves (moves : List HostMove) (s : State) :
    s.inq <+: (moves.foldl (fun v m => hostMove m v) s).inq := by
  induction moves generalizing s with
  | nil => exact List.prefix_rfl
  | cons m moves ih => exact (inq_prefix_hostMove m s).trans (ih _)

/-! ### What the program gets -/

/-- The `n`-th of a row of `GET_KEY`s gives the queue's `n`-th code, counted from 0, and leaves the codes behind it. -/
theorem execAll_getKeys (n : Nat) (hcode : s.inq[n]? = some c) :
    ∃ t, execAll (List.replicate (n + 1) (.getKey 0)) s = .next t ∧ t.acc = c ∧ t.inq = s.inq.drop (n + 1) := by
  induction n generalizing s with
  | zero =>
    obtain ⟨q, hqueue⟩ := List.head?_eq_some_iff.mp (List.head?_eq_getElem?.trans hcode)
    exact ⟨_, execAll_cons [] (exec_getKey 0 hqueue), rfl, by rw [hqueue]; rfl⟩
  | succ n ih =>
    have hcode' : (popRest s.inq)[n]? = some c := List.getElem?_tail.trans hcode
    obtain ⟨t, hrun, hacc, hrest⟩ := ih (s := (s.setAcc _).setInq _) hcode'
    exact ⟨t, (execAll_cons _ (exec_getKey 0 rfl)).trans hrun, hacc, hrest.trans List.drop_tail⟩

/-- Settles O28: the pushed codes stand behind the old ones, and a row of `GET_KEY`s takes them from the front. -/
theorem keysComeOutInOrder : Obligations.KeysComeOutInOrder := by
  intro s cs n c hcode
  rw [foldl_hostMove_pushCode]
  exact execAll_getKeys (s := s.setInq (s.inq ++ cs)) n hcode

/-- A 1 from `KEY_AVAILABLE` tells that the queue has a front, and leaves the queue (44_input.md R186). -/
theorem keyAvailable_one {ignored : Byte} (hexec : exec (.keyAvailable ignored) s = .next t) (hacc : t.acc = 1) :
    s.inq ≠ [] ∧ t.inq = s.inq := by
  cases (exec_keyAvailable ignored s).symm.trans hexec
  refine ⟨fun hempty => ?_, rfl⟩
  rw [State.setAcc_acc, if_pos hempty] at hacc
  exact absurd hacc (by decide)

/-- Settles O29: the queue has a front, and what the host leaves has that queue as a prefix. -/
theorem availableKeyStaysUntilTaken : Obligations.AvailableKeyStaysUntilTaken := by
  intro x y s t moves hexec hacc
  obtain ⟨hne, hqueue⟩ := keyAvailable_one hexec hacc
  obtain ⟨c, q, hfront⟩ := List.exists_cons_of_ne_nil hne
  obtain ⟨r, hmoved⟩ := inq_prefix_hostMoves moves t
  rw [hqueue, hfront] at hmoved
  exact ⟨_, exec_getKey y hmoved.symm, by rw [hfront]; rfl⟩

end Sys2Proof.Machine
end

section
/-! PROOFS. The logging instructions (45_logging.md R200 to R204): LOG takes a sum or ACC, ACC takes LOG, or an event reports
LOG. -/

namespace Sys2Proof.Machine

variable {s : State} {a : Byte}

/-- `LOG_ADD` with its operand byte as the addend (45_logging.md R201). -/
theorem exec_logAdd_imm (imm : Byte) (hmode : s.cfg.logAddMode = .imm) :
    exec (.logAdd imm) s = .next (s.setLog (s.log + imm)) :=
  execLogAdd_imm imm hmode

/-- `LOG_ADD` with a cell as the addend (45_logging.md R201). -/
theorem exec_logAdd_mem (hmode : s.cfg.logAddMode = .mem) (hcell : a.toNat < s.cfg.memSize) :
    exec (.logAdd a) s = .next (s.setLog (s.log + s.mem.read a.toNat)) :=
  (execLogAdd_mem a hmode).trans (withData_ok hcell)

/-- Settles O30: in each mode LOG takes the sum of two bytes, which is the numbers' sum modulo 256. -/
theorem logAddWrapsInBothModes : Obligations.LogAddWrapsInBothModes := by
  intro v s
  rw [ofNat_sum, ofNat_sum]
  exact ⟨exec_logAdd_imm v, exec_logAdd_mem⟩

/-- Settles O31: the three meanings receive no operand byte, and each is one write of ACC, of LOG or of OUT. -/
theorem logMovesAndPrints : Obligations.LogMovesAndPrints := fun _ _ => ⟨rfl, rfl, rfl⟩

end Sys2Proof.Machine
end

section
/-! PROOFS. The loader and construction (60_exceptions.md R224, R236, R240): an image inside memory is a row of memory writes
from the left, the first address outside ends the load, and each write keeps the invariant. -/

namespace Sys2Proof.Machine

variable {s : State} {c : Host.Cell} {image rest : List Host.Cell}

/-! ### One cell of an image -/

theorem load_cons_inside (hin : c.1 < s.cfg.memSize) :
    load (c :: rest) s = load rest (s.setMem (s.mem.write c.1 c.2)) := by
  rw [load, memWrite_eq, if_pos hin]

theorem load_cons_outside (hout : s.cfg.memSize ≤ c.1) : load (c :: rest) s = .refused (.loadOutOfRange c.1) := by
  rw [load, memWrite_eq, if_neg (Nat.not_lt.mpr hout)]

/-! ### A whole image -/

/-- Memory after the cells of an image are written in their order. -/
def Memory.loaded (m : Memory) (image : List Host.Cell) : Memory := image.foldl (fun m c => m.write c.1 c.2) m

theorem Memory.loaded_cons (m : Memory) (c : Host.Cell) (rest : List Host.Cell) :
    m.loaded (c :: rest) = (m.write c.1 c.2).loaded rest := rfl

/-- A cell reads as the last entry of the image for it, and as before where the image has none. -/
theorem Memory.read_loaded (m : Memory) (image : List Host.Cell) (a : Nat) :
    (m.loaded image).read a = ((image.reverse.find? (fun c => c.1 == a)).map (fun c => c.2)).getD (m.read a) := by
  induction image generalizing m with
  | nil => rfl
  | cons c rest ih =>
    rw [Memory.loaded_cons, ih, Memory.read_write, List.reverse_cons, List.find?_append]
    cases rest.reverse.find? (fun c => c.1 == a) with
    | some later => rfl
    | none =>
      obtain rfl | hne := eq_or_ne a c.1
      · simp
      · simp [hne, hne.symm]

/-- An image inside memory is loaded, and only memory changes (60_exceptions.md R236). -/
theorem load_inside (hin : ∀ c ∈ image, c.1 < s.cfg.memSize) : load image s = .next (s.setMem (s.mem.loaded image)) := by
  induction image generalizing s with
  | nil => rfl
  | cons c rest ih =>
    obtain ⟨hc, hrest⟩ := List.forall_mem_cons.mp hin
    exact (load_cons_inside hc).trans (ih hrest)

/-- An image with an address outside memory is refused by such an address (60_exceptions.md R224). -/
theorem load_outside (hout : ∃ c ∈ image, s.cfg.memSize ≤ c.1) :
    ∃ a, load image s = .refused (.loadOutOfRange a) ∧ s.cfg.memSize ≤ a := by
  induction image generalizing s with
  | nil => simp at hout
  | cons c rest ih =>
    obtain hc | hc := Nat.lt_or_ge c.1 s.cfg.memSize
    · have hrest : ∃ c ∈ rest, s.cfg.memSize ≤ c.1 := by simpa [Nat.not_le.mpr hc] using hout
      rw [load_cons_inside hc]
      exact ih hrest
    · exact ⟨c.1, load_cons_outside hc, hc⟩

/-- Settles O46: the loaded memory is the old one after the image's writes, of which the last to a cell stands. -/
theorem loaderWritesTheImageOrRefuses : Obligations.LoaderWritesTheImageOrRefuses := fun image s =>
  ⟨fun hin => ⟨s.mem.loaded image, load_inside hin, s.mem.read_loaded image⟩, load_outside⟩

/-! ### The invariant -/

theorem load_keeps_inv (h : s.Inv) (image : List Host.Cell) : NextOnly State.Inv (load image s) := by
  induction image generalizing s with
  | nil => exact .next h
  | cons c rest ih =>
    obtain hc | hc := Nat.lt_or_ge c.1 s.cfg.memSize
    · rw [load_cons_inside hc]
      exact ih (h.writeMem hc c.2)
    · rw [load_cons_outside hc]
      exact fun _ ht => nomatch ht

/-- A machine is constructed only with legal parameters, and is then the initial one with the image loaded. -/
theorem construct_next {cfg : Config} (hs : construct cfg image = .next s) :
    cfg.wf = true ∧ load image (State.initial cfg) = .next s := by
  unfold construct at hs
  split at hs
  · exact ⟨‹_›, hs⟩
  · cases hs

/-- Settles O52: the initial machine meets the invariant, and loading keeps it. -/
theorem constructedMachineSatisfiesTheInvariant : Obligations.ConstructedMachineSatisfiesTheInvariant := by
  intro cfg image s hs
  obtain ⟨hwf, hload⟩ := construct_next hs
  exact load_keeps_inv (State.initial_inv hwf) image s hload

end Sys2Proof.Machine
end

section
/-! PROOFS. A compiled program's image in memory (70_reset_and_hazards.md R252, R255, R256; 60_exceptions.md R236): bytes loaded
in a row stand in their cells until a later entry, encoded bytes that stand in memory are the code, and the layout keeps the
program's bytes off the pool. -/

namespace Sys2Proof.Machine

variable {m : OpMap} {mem : Memory} {a b : Nat} {c : Host.Cell} {bytes : List Byte} {image : List Host.Cell} {i : Instr}
  {code : List Instr} {L : Layout} {sc : Scratch} {p : Stmt}

/-! ### Bytes in a row -/

/-- The bytes stand in consecutive cells from `a` on. -/
def Memory.Holds (mem : Memory) (a : Nat) (bytes : List Byte) : Prop := ∀ k v, bytes[k]? = some v → mem.read (a + k) = v

theorem Memory.Holds.tail {v : Byte} (h : mem.Holds a (v :: bytes)) : mem.Holds (a + 1) bytes := by
  intro k w hk
  rw [Nat.add_assoc, Nat.add_comm 1]
  exact h (k + 1) w hk

theorem address_of_mem_placeAt (h : c ∈ placeAt a bytes) : a ≤ c.1 ∧ c.1 < a + bytes.length := by
  obtain ⟨k, hk, hc⟩ := mem_placeAt.mp h
  obtain ⟨hlt, -⟩ := List.getElem?_eq_some_iff.mp hk
  omega

theorem Memory.loaded_append (mem : Memory) (first second : List Host.Cell) :
    mem.loaded (first ++ second) = (mem.loaded first).loaded second := List.foldl_append

/-- An image leaves the cells it has no entry for. -/
theorem Memory.read_loaded_of_no_entry (mem : Memory) (h : ∀ c ∈ image, c.1 ≠ b) : (mem.loaded image).read b = mem.read b := by
  have hnone : image.reverse.find? (fun c => c.1 == b) = none := by simpa using h
  rw [Memory.read_loaded, hnone]
  rfl

/-- An image leaves the bytes that none of its addresses meets. -/
theorem Memory.Holds.loaded (h : mem.Holds a bytes) (hapart : ∀ c ∈ image, c.1 < a ∨ a + bytes.length ≤ c.1) :
    (mem.loaded image).Holds a bytes := by
  intro k v hk
  obtain ⟨hlt, -⟩ := List.getElem?_eq_some_iff.mp hk
  have hno_entry : ∀ c ∈ image, c.1 ≠ a + k := fun c hc => by
    have := hapart c hc
    omega
  exact (mem.read_loaded_of_no_entry hno_entry).trans (h k v hk)

/-- Bytes loaded in a row stand in their cells: the later ones go to later cells. -/
theorem Memory.loaded_placeAt_holds (mem : Memory) (a : Nat) (bytes : List Byte) :
    (mem.loaded (placeAt a bytes)).Holds a bytes := by
  induction bytes generalizing mem a with
  | nil => simp [Memory.Holds]
  | cons v rest ih =>
    intro k w hk
    cases k with
    | zero =>
      have hlater : ∀ c ∈ placeAt (a + 1) rest, c.1 ≠ a := fun c hc => Nat.ne_of_gt (address_of_mem_placeAt hc).1
      obtain rfl : v = w := by simpa using hk
      exact (Memory.read_loaded_of_no_entry _ hlater).trans ((Memory.read_write mem a v a).trans (if_pos rfl))
    | succ k =>
      rw [← Nat.add_assoc, Nat.add_right_comm]
      exact ih _ _ k w hk

/-! ### Encoded code -/

theorem decode_of_encode (hm : m.wf = true) {opcode opnd : Byte} (h : encode m i = some (opcode, opnd)) :
    decode m opcode opnd = .instr i := by
  obtain ⟨_, _, hencode, hdecode⟩ := decodingUndoesEncoding m i hm
  obtain ⟨rfl, rfl⟩ : _ ∧ _ := by simpa using hencode.symm.trans h
  exact hdecode

/-- Encoded code is the two bytes of its first instruction, then the encoded rest. -/
theorem encodeAll_cons_eq_some (h : encodeAll m (i :: code) = some bytes) :
    ∃ opcode opnd rest, encode m i = some (opcode, opnd) ∧ encodeAll m code = some rest ∧ bytes = opcode :: opnd :: rest := by
  rw [encodeAll] at h
  split at h
  next opcode opnd rest hfirst hrest => exact ⟨opcode, opnd, rest, hfirst, hrest, (Option.some.inj h).symm⟩
  next => cases h

theorem length_of_encodeAll (h : encodeAll m code = some bytes) : bytes.length = codeBytes code := by
  induction code generalizing bytes with
  | nil =>
    cases h
    rfl
  | cons i code ih =>
    obtain ⟨_, _, rest, -, hrest, rfl⟩ := encodeAll_cons_eq_some h
    simp [ih hrest]

/-- Where the encoded bytes stand in memory, the code stands. -/
theorem Memory.Holds.codeAt (hm : m.wf = true) (h : mem.Holds a bytes) (hbytes : encodeAll m code = some bytes) :
    codeAt m mem a code = true := by
  induction code generalizing a bytes with
  | nil => rfl
  | cons i code ih =>
    obtain ⟨opcode, opnd, rest, hfirst, hrest, rfl⟩ := encodeAll_cons_eq_some hbytes
    have hopcode : mem.read a = opcode := h 0 opcode rfl
    have hopnd : mem.read (a + 1) = opnd := h 1 opnd rfl
    simp [Machine.codeAt, hopcode, hopnd, decode_of_encode hm hfirst, ih h.tail.tail hrest]

/-! ### The image -/

/-- A program's image is its constants and its encoded code, and they fit the layout. -/
theorem compiledImage_eq_some (h : compiledImage m sc p = some image) :
    ∃ code bytes, compiledCode sc p = some code ∧ encodeAll m code = some bytes ∧
      (Layout.ofProgram p).fits bytes.length = true ∧ image = buildImage (Layout.ofProgram p).constantCells bytes := by
  unfold compiledImage at h
  split at h
  next code hcode =>
    split at h
    next bytes hbytes =>
      split at h
      next hfits => exact ⟨code, bytes, hcode, hbytes, hfits, (Option.some.inj h).symm⟩
      next => cases h
    next => cases h
  next => cases h

/-- A fitting layout's image lies below 200: the pool in 100 to 199, the program below it. -/
theorem Layout.address_lt_of_fits (hfits : L.fits bytes.length = true) (hc : c ∈ buildImage L.constantCells bytes) : c.1 < 200 := by
  obtain ⟨hprogram, hpool, -⟩ := (L.fits_iff _).mp hfits
  obtain hc | hc := List.mem_append.mp hc
  · have haddress : 100 ≤ c.1 ∧ c.1 < 100 + L.constants.length := address_of_mem_placeAt hc
    omega
  · have haddress := address_of_mem_placeAt hc
    omega

theorem loaded_buildImage_holds_program (mem : Memory) (cells : List Host.Cell) (bytes : List Byte) :
    (mem.loaded (buildImage cells bytes)).Holds 0 bytes := by
  rw [buildImage, Memory.loaded_append]
  exact Memory.loaded_placeAt_holds _ 0 bytes

/-- The program's bytes, loaded after the constants, end below the pool (70_reset_and_hazards.md R256). -/
theorem loaded_buildImage_holds_constants (mem : Memory) (hfits : L.fits bytes.length = true) :
    (mem.loaded (buildImage L.constantCells bytes)).Holds poolBase L.constants := by
  obtain ⟨hprogram, -, -⟩ := (L.fits_iff _).mp hfits
  rw [buildImage, Memory.loaded_append]
  refine (Memory.loaded_placeAt_holds mem poolBase L.constants).loaded fun c hc => .inl ?_
  have haddress := address_of_mem_placeAt hc
  simp only [poolBase]
  omega

/-- A constant is read at its own address. -/
theorem Layout.read_constantAddress (h : mem.Holds poolBase L.constants) {v : Byte} (hv : v ∈ L.constants) :
    mem.read (L.constantAddress v) = v :=
  h _ v (List.getElem?_idxOf hv)

/-- Settles O59: the image is inside memory, so it is loaded; its program stands at 0, below the pool, and the cells of the
first uses are one each. -/
theorem compiledImageHoldsCodeAndConstants : Obligations.CompiledImageHoldsCodeAndConstants := by
  intro m sc p image s hm hsize himage
  obtain ⟨code, bytes, hcode, hbytes, hfits, rfl⟩ := compiledImage_eq_some himage
  obtain ⟨hprogram, -, -⟩ := (Layout.fits_iff _ _).mp hfits
  have hload := load_inside (s := s) fun c hc => (Layout.address_lt_of_fits hfits hc).trans_le (by omega)
  have hcodeAt := (loaded_buildImage_holds_program s.mem (Layout.ofProgram p).constantCells bytes).codeAt hm hbytes
  have hpool := loaded_buildImage_holds_constants s.mem hfits
  refine ⟨code, _, hcode, hload, hcodeAt, length_of_encodeAll hbytes ▸ hprogram, fun v hv => ?constants,
    fun x hx => ?allocated, fun x hx _ _ => ?apart, firstUses_nodup _, fun _ => mem_firstUses.mp⟩
  case constants =>
    have hv : v ∈ (Layout.ofProgram p).constants := mem_firstUses.mpr hv
    obtain ⟨hlow, hhigh⟩ := Layout.constantAddress_lt hfits hv
    exact ⟨hlow, hhigh, Layout.read_constantAddress hpool hv⟩
  case allocated => exact Layout.variableAddress_lt hfits (mem_firstUses.mpr hx)
  case apart => exact Layout.variableAddress_inj (mem_firstUses.mpr hx)

end Sys2Proof.Machine
end
